-- ==== Sys2Proof/Word.lean ====
section
/-! DEFINITION. The word types of the machine (00_scope.md rule R6): bytes of the program text, T32 halfwords,
and 32-bit register values, addresses and A32 words. -/

namespace Sys2Proof

/-- A byte of the program text (R21). -/
abbrev Byte := BitVec 8

/-- A T32 halfword (R22). -/
abbrev Half := BitVec 16

/-- A register value, an address, an A32 instruction word (R6). -/
abbrev Word := BitVec 32

end Sys2Proof
end

