-- ==== Sys2Proof/Config.lean ====
section
/-! DEFINITION. What an implementation fixes (00_scope.md rule R6, the parameter table) and the free values the spec
leaves open. Every `opaque` constant below has no body: a theorem about the model holds for every value of it. Of the
other rows of the table: XLEN is the width of `Word`; no rule branches on ARCH_VERSION (D1); instruction bytes are
little-endian (D4) in Decode.lean; T2 and T3 with `Rd` 1111 are refused (D8) in Decode.lean; the program text and the
launch state are in State, and END is an argument of a run (Safety.lean). -/

namespace Sys2Proof.Config

/-- HAS_HYP (R6, D15): whether the PE has Hyp mode. OPEN in the spec. Log entry 15. -/
opaque hasHyp : Bool

/-- Whether the PE implements Monitor mode: the "not implemented" case of R69's outline of an illegal return, for
Monitor. DESIGN CHOICE, log entry 15. -/
opaque hasMonitor : Bool

/-- The parameters that decide between a refusal and an effect. The spec provides the first two as switches (R6, D10,
D16). The last two are the model's own: R6 has 'refuse (never a value)' for the one and no row of its own for the other,
which D20 refuses. DESIGN CHOICE, log entries 12 and 13. -/
structure Params where
  /-- `admit_t32_zero_byte` (R65, D10): the replicated-byte T32 immediates 0x100, 0x200 and 0x300 are admitted, with
  value 0. -/
  admitT32ZeroByte : Bool
  /-- `exception_return` (R58, R69, D16): the operation behind `ALUExceptionReturn` outside Hyp, User and System modes
  is supplied. -/
  exceptionReturn : Bool
  /-- The model's own, log entry 12: one of the two behaviours R69 names is taken in User and System modes, instead of the
  refusal ALU_EXCRET_USER_SYSTEM of R6, R58 and D9. -/
  permitUserSystemReturn : Bool
  /-- The model's own, log entry 13: one of the two behaviours R68 names is taken, instead of the refusal
  A32_BRANCH_TARGET_MISALIGNED of R57 and D20. -/
  permitMisalignedTarget : Bool
  deriving DecidableEq, Repr

/-- The spec's own values, every one a refusal: R6's table for the first three, R57 and D20 for the last (log entry 13). -/
def tableParams : Params where
  admitT32ZeroByte := false
  exceptionReturn := false
  permitUserSystemReturn := false
  permitMisalignedTarget := false

/-- The machine's own setting: the spec's values, but that the two switches the spec itself provides (D10, D16) are set.
DESIGN CHOICE, log entries 11 and 14. -/
def params : Params :=
  { tableParams with admitT32ZeroByte := true, exceptionReturn := true }

/-- `admit_t32_zero_byte` as the machine sets it. -/
def admitT32ZeroByte : Bool := params.admitT32ZeroByte

/-- The two behaviours R69 permits for `ALUExceptionReturn` in User and System modes. -/
inductive UserSystemReturn where
  /-- The instruction is UNDEFINED. -/
  | undefined
  /-- The instruction executes as a NOP. -/
  | nop
  deriving DecidableEq, Repr, Inhabited

/-- Which of R69's two permitted behaviours occurs where one is taken, as a fresh free value per occurrence. Log entry
12. -/
opaque userSystemReturn : Nat → UserSystemReturn

/-- Bit 1 of the pc after `BXWritePC` to A32 state with `address[1] == 1`: forced to 0, or left at 1 (R68), where one
of the two is taken, as a fresh free value per occurrence. Log entry 13. -/
opaque freeTargetBit : Nat → BitVec 1

/-- `new_pc[1:0] <- UNKNOWN` of R69 when the exception return leaves IL = 1, a fresh free value per occurrence.
Log entry 16. -/
opaque freePcLow : Nat → BitVec 2

end Sys2Proof.Config
end

