-- ==== Sys2Proof/Syntax.lean ====
section
/-! DEFINITION. The instructions, one constructor per row of spec/opcode_table.json, their fields named and sized as in
the diagrams (30_encoding.md rules R30 to R33), and the reasons a bit pattern is turned away (R40, R41). -/

namespace Sys2Proof

/-- The six encodings of SUB, SUBS (SP minus immediate) (00_scope.md rule R4). `Rn` is fixed to the SP in every one
and is therefore no field. -/
inductive Instr where
  /-- `SUB_SP_i_A1` (R30, R51, R57): A32, S = 0. -/
  | subA1 (cond rd : BitVec 4) (imm12 : BitVec 12)
  /-- `SUBS_SP_i_A1` (R30, R52, R58): A32, S = 1. -/
  | subsA1 (cond rd : BitVec 4) (imm12 : BitVec 12)
  /-- `SUB_SP_i_T1` (R31, R53): T32, 16 bits. -/
  | subT1 (imm7 : BitVec 7)
  /-- `SUB_SP_i_T2` (R32, R54): T32, modified immediate, S = 0. The field the diagram calls `i` is `ib`. -/
  | subT2 (ib : BitVec 1) (imm3 : BitVec 3) (rd : BitVec 4) (imm8 : BitVec 8)
  /-- `SUBS_SP_i_T2` (R32, R55): T32, modified immediate, S = 1. -/
  | subsT2 (ib : BitVec 1) (imm3 : BitVec 3) (rd : BitVec 4) (imm8 : BitVec 8)
  /-- `SUB_SP_i_T3` (R33, R56): T32, plain 12-bit immediate (SUBW). -/
  | subT3 (ib : BitVec 1) (imm3 : BitVec 3) (rd : BitVec 4) (imm8 : BitVec 8)
  deriving DecidableEq, Repr

/-- The behaviours the spec calls UNPREDICTABLE and gives no effect for (R82). -/
inductive Unpredictable where
  /-- `T2_SUB_Rd_PC` (R40, R54, D8): T2 with S = 0 and Rd = 15. -/
  | t2SubRdPc
  /-- `T3_Rd_PC` (R40, R56, D8): T3 with Rd = 15. -/
  | t3RdPc
  /-- `T32_EXPANDIMM_ZERO_BYTE` (R65, D10): raised only where the switch `admit_t32_zero_byte` is off. -/
  | t32ExpandImmZeroByte
  /-- `IT_STATE_INCONSISTENT` (R66, D17). -/
  | itStateInconsistent
  /-- `ALU_EXCRET_USER_SYSTEM` (R58, D9): SUBS to the pc in User or System mode. -/
  | aluExcretUserSystem
  /-- `A32_BRANCH_TARGET_MISALIGNED` (R57, D20): SUB to the pc with bits 1:0 of the target 10. -/
  | a32BranchTargetMisaligned
  deriving DecidableEq, Repr

/-- Why a decoder turns bytes away. -/
inductive Reject where
  /-- The bits match none of the six encodings (R41, D22). A 16-bit pattern is zero-extended; a 32-bit T32 pattern is
  `hw1 : hw2`. -/
  | notInSpec (bits : Word)
  /-- An UNPREDICTABLE line of the matched encoding's Decode text (R40, R84 step 3). -/
  | unpredictable (u : Unpredictable)
  /-- The bytes end before the instruction does (R22). -/
  | truncated
  deriving DecidableEq, Repr

end Sys2Proof
end

