-- ==== Sys2Proof/WellFormed.lean ====
section
/-! DEFINITION. Which instruction terms are instructions of the spec: the constraints of 30_encoding.md rule R40 on the
fields (`cond != 1111`, `Rd != 1111` in T2 and T3, and the zero-byte immediates of R65 under the switch of D10). -/

namespace Sys2Proof

/-- R65, D10: `i:imm3:imm8` is 0x100, 0x200 or 0x300, a replicated form of a zero byte. -/
def isZeroByteForm (ib : BitVec 1) (imm3 : BitVec 3) (imm8 : BitVec 8) : Bool :=
  let imm12 : BitVec 12 := ib ++ imm3 ++ imm8
  imm12 == 0x100#12 || imm12 == 0x200#12 || imm12 == 0x300#12

/-- The constraints of R40, for either setting `zb` of `admit_t32_zero_byte`. -/
def Instr.wfWith (zb : Bool) : Instr → Bool
  | .subA1 cond _ _ => cond != 0xF#4
  | .subsA1 cond _ _ => cond != 0xF#4
  | .subT1 _ => true
  | .subT2 ib imm3 rd imm8 => rd != 0xF#4 && (zb || !isZeroByteForm ib imm3 imm8)
  | .subsT2 ib imm3 rd imm8 => rd != 0xF#4 && (zb || !isZeroByteForm ib imm3 imm8)
  | .subT3 _ _ rd _ => rd != 0xF#4

/-- The constraints of R40 under the model's configuration. -/
def Instr.wf (i : Instr) : Bool := i.wfWith Config.admitT32ZeroByte

end Sys2Proof
end

