-- ==== Sys2Proof/Decode.lean ====
section
/-! DEFINITION. The decoder, total on any bytes, and the encoder, both written from the diagrams of 30_encoding.md
(rules R30 to R33), with the fetch lengths and byte order of 20_memory.md (R22, R23) and the rejections of R40, R41. -/

namespace Sys2Proof

/-! ## Byte order and length (R22, R23) -/

/-- R23: the halfword whose bytes, at rising addresses, are `b0` and `b1`. -/
def halfOfBytes (b0 b1 : Byte) : Half := b1 ++ b0

/-- R23: the A32 word whose bytes, at rising addresses, are `b0` to `b3`. -/
def wordOfBytes (b0 b1 b2 b3 : Byte) : Word := b3 ++ b2 ++ b1 ++ b0

/-- R23: the bytes of a halfword at rising addresses. -/
def bytesOfHalf (h : Half) : List Byte := [h.extractLsb' 0 8, h.extractLsb' 8 8]

/-- R23: the bytes of an A32 word at rising addresses. -/
def bytesOfWord (w : Word) : List Byte :=
  [w.extractLsb' 0 8, w.extractLsb' 8 8, w.extractLsb' 16 8, w.extractLsb' 24 8]

/-- R22: in T32 state, the first halfword of a 32-bit instruction has bits [15:11] = 11101, 11110 or 11111. -/
def isLongT32 (hw1 : Half) : Bool :=
  let top : BitVec 5 := hw1.extractLsb' 11 5
  top == 0b11101#5 || top == 0b11110#5 || top == 0b11111#5

/-! ## The encoder: the diagrams, most significant box first -/

/-- The instruction's bits as the opcode table numbers them: an A32 word (R30), a T32 halfword zero-extended (R31), or
`hw1 : hw2` (R32, R33). -/
def Instr.bits : Instr → Word
  | .subA1 cond rd imm12 => cond ++ 0b0010#4 ++ 0b010#3 ++ 0b0#1 ++ 0b1101#4 ++ rd ++ imm12
  | .subsA1 cond rd imm12 => cond ++ 0b0010#4 ++ 0b010#3 ++ 0b1#1 ++ 0b1101#4 ++ rd ++ imm12
  | .subT1 imm7 => 0#16 ++ (0b10110000#8 ++ 0b1#1 ++ imm7)
  | .subT2 ib imm3 rd imm8 =>
    0b11110#5 ++ ib ++ 0b0#1 ++ 0b1101#4 ++ 0b0#1 ++ 0b1101#4 ++ 0b0#1 ++ imm3 ++ rd ++ imm8
  | .subsT2 ib imm3 rd imm8 =>
    0b11110#5 ++ ib ++ 0b0#1 ++ 0b1101#4 ++ 0b1#1 ++ 0b1101#4 ++ 0b0#1 ++ imm3 ++ rd ++ imm8
  | .subT3 ib imm3 rd imm8 =>
    0b11110#5 ++ ib ++ 0b10#2 ++ 0b1#1 ++ 0b0#1 ++ 0b1#1 ++ 0b0#1 ++ 0b1101#4 ++ 0b0#1 ++ imm3 ++ rd ++ imm8

/-- R34: the instruction set of an encoding class, `true` for T32 (T1, T2, T3), `false` for A32 (A1). -/
def Instr.isT32 : Instr → Bool
  | .subA1 .. | .subsA1 .. => false
  | .subT1 .. | .subT2 .. | .subsT2 .. | .subT3 .. => true

/-- R14, R22: the instruction's length in bytes. -/
def Instr.len : Instr → Nat
  | .subT1 .. => 2
  | .subA1 .. | .subsA1 .. | .subT2 .. | .subsT2 .. | .subT3 .. => 4

/-- The instruction's bytes in the program text, at rising addresses (R22, R23). -/
def encode (i : Instr) : List Byte :=
  match i with
  | .subA1 .. | .subsA1 .. => bytesOfWord i.bits
  | .subT1 .. => bytesOfHalf (i.bits.extractLsb' 0 16)
  | .subT2 .. | .subsT2 .. | .subT3 .. =>
    bytesOfHalf (i.bits.extractLsb' 16 16) ++ bytesOfHalf (i.bits.extractLsb' 0 16)

/-! ## The decoder -/

/-- R71, R40: the constraint, SEE and UNPREDICTABLE lines of the matched encoding, in the order of R84 steps 2 and 3;
`none` where none of them fires. -/
def encodingSpecificWith (zb : Bool) (i : Instr) : Option Reject :=
  match i with
  | .subA1 cond _ _ | .subsA1 cond _ _ => if cond = 0xF#4 then some (.notInSpec i.bits) else none
  | .subT1 _ => none
  | .subT2 ib imm3 rd imm8 =>
    if rd = 0xF#4 then some (.unpredictable .t2SubRdPc)
    else if isZeroByteForm ib imm3 imm8 && !zb then some (.unpredictable .t32ExpandImmZeroByte)
    else none
  | .subsT2 ib imm3 rd imm8 =>
    if rd = 0xF#4 then some (.notInSpec i.bits)
    else if isZeroByteForm ib imm3 imm8 && !zb then some (.unpredictable .t32ExpandImmZeroByte)
    else none
  | .subT3 _ _ rd _ => if rd = 0xF#4 then some (.unpredictable .t3RdPc) else none

/-- The checks of the matched encoding under the model's configuration. -/
def encodingSpecific (i : Instr) : Option Reject := encodingSpecificWith Config.admitT32ZeroByte i

/-- The matched encoding's instruction, unless one of its checks turns it away. -/
def checkedWith (zb : Bool) (i : Instr) : Except Reject Instr :=
  match encodingSpecificWith zb i with
  | some r => .error r
  | none => .ok i

/-- R30, R34: an A32 word, tried against class A1 only. -/
def decodeA32With (zb : Bool) (w : Word) : Except Reject Instr :=
  let cond := w.extractLsb' 28 4
  let rd := w.extractLsb' 12 4
  let imm12 := w.extractLsb' 0 12
  if w &&& 0x0FFF0000#32 = 0x024D0000#32 then checkedWith zb (.subA1 cond rd imm12)
  else if w &&& 0x0FFF0000#32 = 0x025D0000#32 then checkedWith zb (.subsA1 cond rd imm12)
  else .error (.notInSpec w)

/-- R31, R34: a 16-bit T32 instruction, tried against class T1 only. -/
def decodeT16 (h : Half) : Except Reject Instr :=
  if h &&& 0xFF80#16 = 0xB080#16 then .ok (.subT1 (h.extractLsb' 0 7))
  else .error (.notInSpec (h.setWidth 32))

/-- R32, R33, R34: a 32-bit T32 instruction, tried against classes T2 and T3. -/
def decodeT32With (zb : Bool) (hw1 hw2 : Half) : Except Reject Instr :=
  let w : Word := hw1 ++ hw2
  let ib := hw1.extractLsb' 10 1
  let imm3 := hw2.extractLsb' 12 3
  let rd := hw2.extractLsb' 8 4
  let imm8 := hw2.extractLsb' 0 8
  if w &&& 0xFBFF8000#32 = 0xF1AD0000#32 then checkedWith zb (.subT2 ib imm3 rd imm8)
  else if w &&& 0xFBFF8000#32 = 0xF1BD0000#32 then checkedWith zb (.subsT2 ib imm3 rd imm8)
  else if w &&& 0xFBFF8000#32 = 0xF2AD0000#32 then checkedWith zb (.subT3 ib imm3 rd imm8)
  else .error (.notInSpec w)

/-- Decode the instruction that begins a list of bytes at rising addresses, in the instruction set state `t` (R34),
for either setting of `admit_t32_zero_byte`; the answer holds the bytes after it. -/
def decodeBytesWith (zb t : Bool) (bytes : List Byte) : Except Reject (Instr × List Byte) :=
  match t, bytes with
  | false, b0 :: b1 :: b2 :: b3 :: rest =>
    match decodeA32With zb (wordOfBytes b0 b1 b2 b3) with
    | .ok i => .ok (i, rest)
    | .error r => .error r
  | true, b0 :: b1 :: rest =>
    if isLongT32 (halfOfBytes b0 b1) then
      match rest with
      | b2 :: b3 :: rest' =>
        match decodeT32With zb (halfOfBytes b0 b1) (halfOfBytes b2 b3) with
        | .ok i => .ok (i, rest')
        | .error r => .error r
      | _ => .error .truncated
    else
      match decodeT16 (halfOfBytes b0 b1) with
      | .ok i => .ok (i, rest)
      | .error r => .error r
  | _, _ => .error .truncated

/-- The decoder under the model's configuration. -/
def decodeBytes (t : Bool) (bytes : List Byte) : Except Reject (Instr × List Byte) :=
  decodeBytesWith Config.admitT32ZeroByte t bytes

/-! ## Words as the opcode table numbers them -/

/-- An opcode-table word as the instruction set state it needs and its bytes at rising addresses: a row of 16 bits is
T32 (followed by zeros up to four bytes); a row of 32 bits is `hw1 : hw2` where its top five bits are those of a 32-bit
T32 instruction (R22), and an A32 word otherwise (no A1 encoding has such a top, R30). -/
def tableBytes (nbits w : Nat) : Bool × List Byte :=
  let v := BitVec.ofNat 32 w
  if nbits ≤ 16 then (true, bytesOfHalf (v.extractLsb' 0 16) ++ [0#8, 0#8])
  else if isLongT32 (v.extractLsb' 16 16) then
    (true, bytesOfHalf (v.extractLsb' 16 16) ++ bytesOfHalf (v.extractLsb' 0 16))
  else (false, bytesOfWord v)

/-- What the decoder reads from an opcode-table word. -/
def decodeTableWord (nbits w : Nat) : Option Instr :=
  match decodeBytes (tableBytes nbits w).1 (tableBytes nbits w).2 with
  | .ok (i, _) => some i
  | .error _ => none

end Sys2Proof
end

