-- ==== Sys2Proof/Machine/State.lean ====
section
/-! DEFINITION. The machine's state as plain data (10_state.md rules R10 to R19), the ways a step can stop, and the
state after reset. -/

namespace Sys2Proof.Machine

/-- The PE modes (R17). -/
inductive Mode where
  | user | fiq | irq | supervisor | monitor | abort | hyp | undefined | system
  deriving DecidableEq, Repr

/-- The security state of the modes other than Monitor (R69 "current security state"; log entry 15). -/
inductive Security where
  | secure | nonSecure
  deriving DecidableEq, Repr

/-- PSTATE (R17), with the fields the SPSR layout of R18 restores into it. -/
structure PState where
  /-- Negative flag (R16). -/
  n : Bool
  /-- Zero flag (R16). -/
  z : Bool
  /-- Carry flag (R16). -/
  c : Bool
  /-- Overflow flag (R16). -/
  v : Bool
  /-- Cumulative saturation (R17: not touched but by the exception return). -/
  q : Bool
  /-- IT-block state (R17, R66, R70). -/
  it : BitVec 8
  /-- SPSR bit 24 (R18: reserved, J in older editions, later DIT). -/
  dit : Bool
  /-- SPSR bit 23 (R18, later addition). -/
  ssbs : Bool
  /-- SPSR bit 22 (R18, later addition). -/
  pan : Bool
  /-- Software step (R18, R88). -/
  ss : Bool
  /-- Illegal execution state (R17, R69). -/
  il : Bool
  /-- Greater-or-equal flags (R18). -/
  ge : BitVec 4
  /-- Data endianness (R18); never read, there being no data access (R20). -/
  e : Bool
  /-- Asynchronous abort mask (R18, R83). -/
  a : Bool
  /-- IRQ mask (R18, R83). -/
  i : Bool
  /-- FIQ mask (R18, R83). -/
  f : Bool
  /-- Instruction set state: `false` A32, `true` T32 (R17). -/
  t : Bool
  /-- Mode (R17). -/
  m : Mode
  deriving DecidableEq, Repr

/-- The copies of the stack pointer (R13). -/
structure SpBanks where
  usr : Word
  hyp : Word
  svc : Word
  abt : Word
  und : Word
  mon : Word
  irq : Word
  fiq : Word
  deriving DecidableEq, Repr

/-- The copies of the link register (R13); Hyp mode shares `usr`. -/
structure LrBanks where
  usr : Word
  svc : Word
  abt : Word
  und : Word
  mon : Word
  irq : Word
  fiq : Word
  deriving DecidableEq, Repr

/-- The saved program status registers (R13, R18); User and System modes have none. -/
structure SpsrBanks where
  hyp : Word
  svc : Word
  abt : Word
  und : Word
  mon : Word
  irq : Word
  fiq : Word
  deriving DecidableEq, Repr

/-- Every copy of the general-purpose registers (R10, R11, R13). -/
structure Regs where
  /-- R0 to R7, one copy. -/
  low : Vector Word 8
  /-- R8 to R12 in every mode but FIQ. -/
  mid : Vector Word 5
  /-- R8 to R12 in FIQ mode. -/
  midFiq : Vector Word 5
  sp : SpBanks
  lr : LrBanks
  deriving DecidableEq, Repr

/-- The program text (R21, D7): (address, byte) pairs, addresses strictly rising and below 2^32. An unlisted address
reads as no value. -/
abbrev Memory := List Host.Cell

/-- The whole machine. -/
structure State where
  regs : Regs
  /-- The saved program status registers (R18). -/
  spsr : SpsrBanks
  /-- The address of the instruction being executed (R14). -/
  pc : Word
  pstate : PState
  /-- Security state of the modes other than Monitor (R69; log entry 15). -/
  security : Security
  /-- The local exclusive monitor is in its exclusive state (10_state.md section 5, R69). -/
  exclusiveMonitor : Bool
  /-- The event register that a sent local event sets (R69, R88). -/
  eventRegister : Bool
  /-- The index of the next free value: the model's own field (log entry 16). -/
  freeCount : Nat
  /-- The program text (R21). -/
  mem : Memory
  deriving DecidableEq, Repr

/-- Why the machine stops with a fault. Each is safe: the model stops where the hardware takes an exception whose
entry the spec does not describe, or where the spec gives no step. -/
inductive Fault where
  /-- R80, R85, D12: the Undefined Instruction exception, raised by `takeUndefined` for SUBS to the PC in Hyp mode (and
  in User and System modes where the parameters take R69's choices and the choice is UNDEFINED). The spec makes it
  terminal. Safe. -/
  | undefined (pc : Word)
  /-- R24, D6: `fetch` at a pc misaligned for the instruction set state. The spec's stuck case. Safe. -/
  | pcMisaligned (pc : Word)
  /-- R24, D7: `fetch` of an instruction some byte of which the program text does not hold. The spec's stuck case.
  Safe. -/
  | noText (pc : Word)
  /-- PRESUMED, log entry 17: `fetch` while PSTATE.IL is 1, the illegal-execution state of R81. Safe. -/
  | illegalExecutionState (pc : Word)
  deriving DecidableEq, Repr

/-- Why the model gives no meaning. Each is safe: nothing can be proved past it. -/
inductive Refusal where
  /-- `exec`, for an instruction without a meaning yet; no arm answers with it now. Safe. -/
  | notModelled (mnemonic : String)
  /-- R41, D22: `fetch` (and `guarded`, for an ill-formed term) where the bits are none of the six encodings. Safe. -/
  | notInSpec (bits : Word)
  /-- R82: `fetch` and `guarded` (the UNPREDICTABLE lines of Decode), `currentCondA32` and `currentCondT32` (the IT
  state), `aluExceptionReturn` (User and System modes) and `bxWritePC` (a misaligned A32 target). Safe. -/
  | unpredictable (u : Unpredictable)
  /-- R58, D16 (the spec's ExceptionReturnNotModelled): `aluExceptionReturn` where the parameters supply no exception
  return; the machine's own do. Safe. -/
  | exceptionReturnAbsent
  /-- R90: `launch`, of a state that breaks a constraint on launch states. Safe. -/
  | launchNotAllowed
  /-- R14, R84, D3: `advance` where `pc + len` would reach or pass 2^32. Safe. -/
  | pcWrap
  deriving DecidableEq, Repr

/-- How a step, or a part of one, ends. -/
abbrev Result := Host.Outcome State Fault Refusal

/-- PSTATE at reset. PRESUMED, log entry 2: the spec gives no reset value (R19). -/
def PState.reset : PState where
  n := false
  z := false
  c := false
  v := false
  q := false
  it := 0
  dit := false
  ssbs := false
  pan := false
  ss := false
  il := false
  ge := 0
  e := false
  a := true
  i := true
  f := true
  t := false
  m := .supervisor

/-- The state after reset. The spec gives no reset value for anything (R19, R90): every value here is the model's own,
log entries 1, 2 and 3. The program text is empty. -/
def State.reset : State where
  regs :=
    { low := Vector.replicate 8 0, mid := Vector.replicate 5 0, midFiq := Vector.replicate 5 0,
      sp := ⟨0, 0, 0, 0, 0, 0, 0, 0⟩, lr := ⟨0, 0, 0, 0, 0, 0, 0⟩ }
  spsr := ⟨0, 0, 0, 0, 0, 0, 0⟩
  pc := 0
  pstate := PState.reset
  security := .secure
  exclusiveMonitor := false
  eventRegister := false
  freeCount := 0
  mem := []

end Sys2Proof.Machine
end

