-- ==== Sys2Proof/Machine/Flags.lean ====
section
/-! DEFINITION. Flag computation and the condition check: AddWithCarry (41_shared_pseudocode.md rule R63), the write of
N, Z, C, V (R16), ConditionHolds and CurrentCond (R66) and ITAdvance (R70). -/

namespace Sys2Proof.Machine

/-- R63, with N = 32 (its one use, R50): the sum and `n : z : c : v`. -/
def addWithCarry (x y : Word) (carryIn : Bool) : Word × BitVec 4 :=
  let unsignedSum : Nat := x.toNat + y.toNat + carryIn.toNat
  let signedSum : Int := x.toInt + y.toInt + (carryIn.toNat : Int)
  let result : Word := BitVec.ofNat 32 unsignedSum
  let n := result.msb
  let z := result == 0#32
  let c := result.toNat != unsignedSum
  let v := result.toInt != signedSum
  (result, BitVec.ofBool n ++ BitVec.ofBool z ++ BitVec.ofBool c ++ BitVec.ofBool v)

/-- R16, R50: `PSTATE.<N,Z,C,V> = nzcv`, leftmost bit to N. -/
def PState.setNzcv (p : PState) (nzcv : BitVec 4) : PState :=
  { p with n := nzcv.getLsbD 3, z := nzcv.getLsbD 2, c := nzcv.getLsbD 1, v := nzcv.getLsbD 0 }

/-- R66. -/
def conditionHolds (cond : BitVec 4) (p : PState) : Bool :=
  let r :=
    match cond.extractLsb' 1 3 with
    | 0b000#3 => p.z
    | 0b001#3 => p.c
    | 0b010#3 => p.n
    | 0b011#3 => p.v
    | 0b100#3 => p.c && !p.z
    | 0b101#3 => p.n == p.v
    | 0b110#3 => p.n == p.v && !p.z
    | _ => true
  if cond.getLsbD 0 && cond != 0xF#4 then !r else r

/-- R66, D17: `CurrentCond` in A32 state is the instruction's own `cond` field; IT must be zero there. -/
def currentCondA32 (cond : BitVec 4) (p : PState) : Except Unpredictable (BitVec 4) :=
  if p.it = 0 then .ok cond else .error .itStateInconsistent

/-- R66, D17: `CurrentCond` in T32 state. -/
def currentCondT32 (p : PState) : Except Unpredictable (BitVec 4) :=
  if p.it.extractLsb' 0 4 ≠ 0#4 then
    if p.it.extractLsb' 4 4 = 0xF#4 then .error .itStateInconsistent else .ok (p.it.extractLsb' 4 4)
  else if p.it = 0 then .ok 0b1110#4
  else .error .itStateInconsistent

/-- R70. -/
def itAdvance (it : BitVec 8) : BitVec 8 :=
  if it.extractLsb' 0 3 = 0#3 then 0
  else it.extractLsb' 5 3 ++ ((it.extractLsb' 0 5 : BitVec 5) <<< 1)

/-- R70, on PSTATE. -/
def PState.advanceIt (p : PState) : PState := { p with it := itAdvance p.it }

end Sys2Proof.Machine
end

