-- ==== Sys2Proof/Machine/Operands.lean ====
section
/-! DEFINITION. The operand forms: what each encoding's Decode text produces (30_encoding.md rules R35 to R39) and the
immediate expansions (41_shared_pseudocode.md rules R64, R65, R73). -/

namespace Sys2Proof.Machine

/-- R35: the three values every Decode text produces. -/
structure Operands where
  /-- Destination register number, 0 to 15. -/
  d : Nat
  setflags : Bool
  imm32 : Word
  deriving DecidableEq, Repr

/-- R73, for `n < 32`. -/
def ror (v : Word) (n : Nat) : Word := (v >>> n) ||| (v <<< (32 - n))

/-- R64. -/
def a32ExpandImm (imm12 : BitVec 12) : Word :=
  let unrotated : Word := (imm12.extractLsb' 0 8).setWidth 32
  ror unrotated (2 * (imm12.extractLsb' 8 4).toNat)

/-- R65; the three zero-byte forms give 0 (log entry 11). -/
def t32ExpandImm (imm12 : BitVec 12) : Word :=
  let b : BitVec 8 := imm12.extractLsb' 0 8
  if imm12.extractLsb' 10 2 = 0b00#2 then
    match imm12.extractLsb' 8 2 with
    | 0b00#2 => 0#8 ++ 0#8 ++ 0#8 ++ b
    | 0b01#2 => 0#8 ++ b ++ 0#8 ++ b
    | 0b10#2 => b ++ 0#8 ++ b ++ 0#8
    | _ => b ++ b ++ b ++ b
  else
    let unrotated : Word := (0b1#1 ++ (imm12.extractLsb' 0 7 : BitVec 7)).setWidth 32
    ror unrotated (imm12.extractLsb' 7 5).toNat

/-- R35, R36: the A1 Decode text. -/
def operandsA1 (setflags : Bool) (rd : BitVec 4) (imm12 : BitVec 12) : Operands :=
  { d := rd.toNat, setflags := setflags, imm32 := a32ExpandImm imm12 }

/-- R35, R37: the T1 Decode text. -/
def operandsT1 (imm7 : BitVec 7) : Operands :=
  { d := 13, setflags := false, imm32 := (imm7 ++ 0b00#2).setWidth 32 }

/-- R35, R38: the T2 Decode text after its SEE and UNPREDICTABLE lines. -/
def operandsT2 (setflags : Bool) (ib : BitVec 1) (imm3 : BitVec 3) (rd : BitVec 4) (imm8 : BitVec 8) : Operands :=
  { d := rd.toNat, setflags := setflags, imm32 := t32ExpandImm (ib ++ imm3 ++ imm8) }

/-- R35, R39: the T3 Decode text after its UNPREDICTABLE line. -/
def operandsT3 (ib : BitVec 1) (imm3 : BitVec 3) (rd : BitVec 4) (imm8 : BitVec 8) : Operands :=
  { d := rd.toNat, setflags := false, imm32 := (ib ++ imm3 ++ imm8).setWidth 32 }

end Sys2Proof.Machine
end

