-- ==== Sys2Proof/Machine/Ops.lean ====
section
/-! DEFINITION. The named operations over memory and registers, the writes of the pc, the one exception and the
exception return (41_shared_pseudocode.md rules R67 to R69), instruction fetch (20_memory.md rules R21 to R24) and the
shared Execute (40_sub_sp_imm.md rule R50). -/

namespace Sys2Proof.Machine

/-! ## The program text (R21, D7) -/

/-- The canonical form: addresses strictly rising and inside the 32-bit space (R21). -/
abbrev Memory.wf (m : Memory) : Prop :=
  m.Pairwise (fun p q => p.1 < q.1) ∧ ∀ p ∈ m, p.1 < 2 ^ 32

/-- `MemRead(addr, 1)` (R8, R21): no value where the text holds no byte, or outside the address space. -/
def Memory.read (m : Memory) (addr : Nat) : Option Byte :=
  if addr < 2 ^ 32 then List.lookup addr m else none

/-- Put a byte into a list of cells at its place. -/
def Memory.insert : Memory → Nat → Byte → Memory
  | [], addr, b => [(addr, b)]
  | (a, x) :: rest, addr, b =>
    if addr < a then (addr, b) :: (a, x) :: rest
    else if addr = a then (addr, b) :: rest
    else (a, x) :: Memory.insert rest addr b

/-- `MemWrite(addr, 1, b)` (R8): used only to place a program (log entry 5); no instruction calls it (R20). Outside the
address space it writes nothing. -/
def Memory.write (m : Memory) (addr : Nat) (b : Byte) : Memory :=
  if addr < 2 ^ 32 then m.insert addr b else m

/-- Place bytes at rising addresses. -/
def Memory.load (m : Memory) (addr : Nat) : List Byte → Memory
  | [] => m
  | b :: bs => Memory.load (m.write addr b) (addr + 1) bs

/-- The bytes the text holds from `addr` on, at most `n` of them, up to the first absent one. -/
def Memory.window (m : Memory) (addr : Nat) : Nat → List Byte
  | 0 => []
  | n + 1 =>
    match m.read addr with
    | none => []
    | some b => b :: Memory.window m (addr + 1) n

/-! ## The register banks (R13) -/

/-- R13: the copy of the SP a mode sees. -/
def SpBanks.get (b : SpBanks) : Mode → Word
  | .user | .system => b.usr
  | .hyp => b.hyp
  | .supervisor => b.svc
  | .abort => b.abt
  | .undefined => b.und
  | .monitor => b.mon
  | .irq => b.irq
  | .fiq => b.fiq

/-- R13: a write of the copy of the SP a mode sees. -/
def SpBanks.set (b : SpBanks) (v : Word) : Mode → SpBanks
  | .user | .system => { b with usr := v }
  | .hyp => { b with hyp := v }
  | .supervisor => { b with svc := v }
  | .abort => { b with abt := v }
  | .undefined => { b with und := v }
  | .monitor => { b with mon := v }
  | .irq => { b with irq := v }
  | .fiq => { b with fiq := v }

/-- R13: the copy of the LR a mode sees; User, System and Hyp modes share one. -/
def LrBanks.get (b : LrBanks) : Mode → Word
  | .user | .system | .hyp => b.usr
  | .supervisor => b.svc
  | .abort => b.abt
  | .undefined => b.und
  | .monitor => b.mon
  | .irq => b.irq
  | .fiq => b.fiq

/-- R13: a write of the copy of the LR a mode sees. -/
def LrBanks.set (b : LrBanks) (v : Word) : Mode → LrBanks
  | .user | .system | .hyp => { b with usr := v }
  | .supervisor => { b with svc := v }
  | .abort => { b with abt := v }
  | .undefined => { b with und := v }
  | .monitor => { b with mon := v }
  | .irq => { b with irq := v }
  | .fiq => { b with fiq := v }

/-- R13, R18: `SPSR_<mode>`; User and System modes have none. -/
def SpsrBanks.get (b : SpsrBanks) : Mode → Option Word
  | .user | .system => none
  | .hyp => some b.hyp
  | .supervisor => some b.svc
  | .abort => some b.abt
  | .undefined => some b.und
  | .monitor => some b.mon
  | .irq => some b.irq
  | .fiq => some b.fiq

/-- R13, R67: register `n`, 0 to 14, as mode `m` sees it. -/
def Regs.read (r : Regs) (m : Mode) (n : Nat) : Word :=
  if h : n < 8 then r.low[n]
  else if h : n - 8 < 5 then (if m = .fiq then r.midFiq[n - 8] else r.mid[n - 8])
  else if n = 13 then r.sp.get m
  else r.lr.get m

/-- R13, R67: write register `n`, 0 to 14, as mode `m` sees it; a number above 14 names no register here and writes
nothing (log entry 22). -/
def Regs.write (r : Regs) (m : Mode) (n : Nat) (v : Word) : Regs :=
  if n < 8 then { r with low := r.low.setIfInBounds n v }
  else if n < 13 then
    if m = .fiq then { r with midFiq := r.midFiq.setIfInBounds (n - 8) v }
    else { r with mid := r.mid.setIfInBounds (n - 8) v }
  else if n = 13 then { r with sp := r.sp.set v m }
  else if n = 14 then { r with lr := r.lr.set v m }
  else r

/-! ## Updates of the state -/

/-- `pc <- v` (R8). -/
def State.setPc (s : State) (v : Word) : State := { s with pc := v }

/-- A write of PSTATE. -/
def State.setPState (s : State) (p : PState) : State := { s with pstate := p }

/-- `x[n] <- v` (R8, R67). -/
def State.writeReg (s : State) (n : Nat) (v : Word) : State :=
  { s with regs := s.regs.write s.pstate.m n v }

/-- Take the next free value's index (log entry 16). -/
def State.useFree (s : State) : State := { s with freeCount := s.freeCount + 1 }

/-- R69: clear the local exclusive monitor and send a local event. -/
def State.clearMonitorSendEvent (s : State) : State :=
  { s with exclusiveMonitor := false, eventRegister := true }

/-- R67: `R[n]`. For `n` in 0 to 14 the current mode's copy; for 15 the instruction's address plus 8 in A32 state, plus
4 in T32 state (no instruction of the spec reads it, R11). -/
def State.readReg (s : State) (n : Nat) : Word :=
  if n = 15 then s.pc + (if s.pstate.t then 4#32 else 8#32) else s.regs.read s.pstate.m n

/-! ## The end of an instruction that does not branch -/

/-- R14, R59, R84: `pc <- pc + len`, refused as a whole where the sum would reach or pass 2^32. -/
def advance (len : Nat) (s : State) : Result :=
  if 2 ^ 32 ≤ s.pc.toNat + len then .refused .pcWrap
  else .next (s.setPc (s.pc + BitVec.ofNat 32 len))

/-- R59 (c): the same for a T32 instruction, after which the IT state advances (R70). -/
def advanceT32 (len : Nat) (s : State) : Result := advance len (s.setPState s.pstate.advanceIt)

/-! ## Writes of the pc (R68) -/

/-- R68: `BXWritePC`. An A32 target with bit 1 set is refused (R57, D20), unless the parameters take one of R68's two
behaviours, where bit 1 of the pc is a free value: forced to 0 or left (log entry 13). -/
def bxWritePC (p : Config.Params) (address : Word) (s : State) : Result :=
  if address.getLsbD 0 then
    .next ((s.setPState { s.pstate with t := true }).setPc (address.extractLsb' 1 31 ++ 0b0#1))
  else if address.getLsbD 1 then
    if p.permitMisalignedTarget then
      .next ((s.setPState { s.pstate with t := false }).setPc
        (address.extractLsb' 2 30 ++ Config.freeTargetBit s.freeCount ++ 0b0#1)).useFree
    else .refused (.unpredictable .a32BranchTargetMisaligned)
  else .next ((s.setPState { s.pstate with t := false }).setPc address)

/-- R68: `BranchWritePC`. -/
def branchWritePC (address : Word) (s : State) : State :=
  if s.pstate.t then s.setPc (address.extractLsb' 1 31 ++ 0b0#1)
  else s.setPc (address.extractLsb' 2 30 ++ 0b00#2)

/-- R68: `ALUWritePC`. -/
def aluWritePC (p : Config.Params) (address : Word) (s : State) : Result :=
  if s.pstate.t then .next (branchWritePC address s) else bxWritePC p address s

/-! ## The exception, and the return from one -/

/-- R80, R85, D12: taking the Undefined Instruction exception. Exception entry is outside the spec (R5), which makes it
a terminal fault naming the instruction's address. -/
def takeUndefined (s : State) : Result := .fault (.undefined s.pc)

/-- R17: the 5-bit encodings of the modes; the others are reserved. -/
def Mode.ofBits (b : BitVec 5) : Option Mode :=
  match b with
  | 0b10000#5 => some .user
  | 0b10001#5 => some .fiq
  | 0b10010#5 => some .irq
  | 0b10011#5 => some .supervisor
  | 0b10110#5 => some .monitor
  | 0b10111#5 => some .abort
  | 0b11010#5 => some .hyp
  | 0b11011#5 => some .undefined
  | 0b11111#5 => some .system
  | _ => none

/-- Whether the PE is in Secure state. PRESUMED, log entry 15: Monitor mode always is, whatever the state of the other
modes; the spec does not say so. -/
def State.isSecure (s : State) : Bool := s.pstate.m == .monitor || s.security == .secure

/-- R87: the exception level of a mode. The privileged modes other than Hyp and Monitor are EL3 in Secure state where
EL3 uses AArch32, which here is where Monitor mode exists (PRESUMED, log entry 15), else EL1. -/
def Mode.level (m : Mode) (secure : Bool) : Nat :=
  match m with
  | .user => 0
  | .hyp => 2
  | .monitor => 3
  | .fiq | .irq | .supervisor | .abort | .undefined | .system => if secure && Config.hasMonitor then 3 else 1

/-- R69, D15: the mode is implemented. -/
def Mode.implemented (m : Mode) : Bool :=
  match m with
  | .hyp => Config.hasHyp
  | .monitor => Config.hasMonitor
  | .user | .fiq | .irq | .supervisor | .abort | .undefined | .system => true

/-- R69: the outline of an illegal return event. The M field names a reserved mode (or AArch64 state, whose encodings
are none of R17's), a mode not implemented, of higher privilege, or not reachable from the current security state.
DEDUCED, log entry 15. -/
def illegalReturn (spsr : Word) (s : State) : Bool :=
  match Mode.ofBits (spsr.extractLsb' 0 5) with
  | none => true
  | some target =>
    !target.implemented
      || decide (s.pstate.m.level s.isSecure < target.level s.isSecure)
      || (target == .monitor && !s.isSecure)
      || (target == .hyp && s.pstate.m != .monitor && s.pstate.m != .hyp)

/-- R18, R69: the PSTATE fields loaded from an SPSR whether or not the return is legal; mode, instruction set state and
IL are the old ones. -/
def PState.restoreAlways (p : PState) (spsr : Word) : PState where
  n := spsr.getLsbD 31
  z := spsr.getLsbD 30
  c := spsr.getLsbD 29
  v := spsr.getLsbD 28
  q := spsr.getLsbD 27
  it := spsr.extractLsb' 10 6 ++ spsr.extractLsb' 25 2
  dit := spsr.getLsbD 24
  ssbs := spsr.getLsbD 23
  pan := spsr.getLsbD 22
  ss := spsr.getLsbD 21
  il := p.il
  ge := spsr.extractLsb' 16 4
  e := spsr.getLsbD 9
  a := spsr.getLsbD 8
  i := spsr.getLsbD 7
  f := spsr.getLsbD 6
  t := p.t
  m := p.m

/-- R69: `SetPSTATEFromPSR`. -/
def setPSTATEFromPSR (spsr : Word) (s : State) : State :=
  let always := s.pstate.restoreAlways spsr
  if illegalReturn spsr s then s.setPState { always with il := true }
  else
    s.setPState
      { always with
        il := spsr.getLsbD 20
        t := spsr.getLsbD 5
        m := (Mode.ofBits (spsr.extractLsb' 0 5)).getD s.pstate.m }

/-- R69, R86: `ExceptionReturn`. The UNKNOWN low bits of the pc, where IL is 1 afterwards, are a free value (log entry
16); the context synchronisation has no state (R26). -/
def exceptionReturn (newPc spsr : Word) (s : State) : State :=
  let s' := (setPSTATEFromPSR spsr s).clearMonitorSendEvent
  if s'.pstate.il then (s'.setPc (newPc.extractLsb' 2 30 ++ Config.freePcLow s.freeCount)).useFree
  else if s'.pstate.t then s'.setPc (newPc.extractLsb' 1 31 ++ 0b0#1)
  else s'.setPc (newPc.extractLsb' 2 30 ++ 0b00#2)

/-- R58, R69: `ALUExceptionReturn`. UNDEFINED in Hyp mode. User and System modes, which have no SPSR, are refused (D9),
unless the parameters take one of R69's two choices, a free value (log entry 12). The other modes return, where the
parameters supply the operation (D16). -/
def aluExceptionReturn (p : Config.Params) (address : Word) (s : State) : Result :=
  if s.pstate.m = .hyp then takeUndefined s
  else
    match s.spsr.get s.pstate.m with
    | some spsr => if p.exceptionReturn then .next (exceptionReturn address spsr s) else .refused .exceptionReturnAbsent
    | none =>
      if p.permitUserSystemReturn then
        match Config.userSystemReturn s.freeCount with
        | .undefined => takeUndefined s
        | .nop => advance 4 s.useFree
      else .refused (.unpredictable .aluExcretUserSystem)

/-! ## The shared Execute -/

/-- R50, after the condition has passed; `adv` ends an instruction that does not write the pc. SP is read before
anything is written. -/
def subSp (p : Config.Params) (o : Operands) (adv : State → Result) (s : State) : Result :=
  let (result, nzcv) := addWithCarry (s.readReg 13) (~~~o.imm32) true
  if o.d = 15 then
    if o.setflags then aluExceptionReturn p result s else aluWritePC p result s
  else
    let written := s.writeReg o.d result
    adv (if o.setflags then written.setPState (written.pstate.setNzcv nzcv) else written)

/-- R84 steps 4 to 9: the condition, then Execute, or only the advance. -/
def conditionally (p : Config.Params) (cond : Except Unpredictable (BitVec 4)) (o : Operands) (adv : State → Result)
    (s : State) : Result :=
  match cond with
  | .error u => .refused (.unpredictable u)
  | .ok c => if conditionHolds c s.pstate then subSp p o adv s else adv s

/-- R50, R59 for class A1. -/
def executeA32 (p : Config.Params) (cond : BitVec 4) (o : Operands) (s : State) : Result :=
  conditionally p (currentCondA32 cond s.pstate) o (advance 4) s

/-- R50, R59 for classes T1, T2 and T3. -/
def executeT32 (p : Config.Params) (len : Nat) (o : Operands) (s : State) : Result :=
  conditionally p (currentCondT32 s.pstate) o (advanceT32 len) s

/-! ## Turning an encoding away -/

/-- How a rejected encoding ends a step (R24, R41, R82). -/
def rejected {α : Type} (r : Reject) (pc : Word) : Host.Outcome α Fault Refusal :=
  match r with
  | .notInSpec bits => .refused (.notInSpec bits)
  | .unpredictable u => .refused (.unpredictable u)
  | .truncated => .fault (.noText pc)

/-- R71: the checks of the matched encoding, which come before everything else of the instruction (R84). The decoder
has made them for an instruction that was fetched; here they turn an ill-formed term away (log entry 22). -/
def guarded (i : Instr) (body : State → Result) (s : State) : Result :=
  match encodingSpecific i with
  | some r => rejected r s.pc
  | none => body s

/-! ## Instruction fetch -/

/-- R24, D6: the pc is aligned for the instruction set state. -/
def State.pcAligned (s : State) : Bool :=
  if s.pstate.t then s.pc.extractLsb' 0 1 == 0#1 else s.pc.extractLsb' 0 2 == 0#2

/-- R22 to R24, R84 steps 1 to 3: fetch and decode the instruction at the pc. -/
def fetch (s : State) : Host.Outcome Instr Fault Refusal :=
  if s.pstate.il then .fault (.illegalExecutionState s.pc)
  else if !s.pcAligned then .fault (.pcMisaligned s.pc)
  else
    match decodeBytes s.pstate.t (s.mem.window s.pc.toNat 4) with
    | .ok (i, _) => .next i
    | .error r => rejected r s.pc

/-- Place a program's bytes at the pc, for the instruction set state `t` (log entry 5). -/
def State.place (s : State) (t : Bool) (bytes : List Byte) : State :=
  { s with pstate := { s.pstate with t := t }, mem := s.mem.load s.pc.toNat bytes }

/-! ## The launch -/

/-- R90, D13, D17: the constraints a launch state must meet. (M is one of the nine modes by its type.) -/
abbrev State.LaunchOk (s : State) : Prop :=
  (s.pstate.t = false → s.pc.extractLsb' 0 2 = 0#2 ∧ s.pstate.it = 0)
    ∧ (s.pstate.t = true → s.pc.getLsbD 0 = false
        ∧ ¬(s.pstate.it.extractLsb' 0 4 ≠ 0#4 ∧ s.pstate.it.extractLsb' 4 4 = 0xF#4))
    ∧ (s.pstate.m = .hyp → Config.hasHyp = true)

/-- R90: a run starts from a launch state, which is refused where it breaks a constraint. -/
def launch (s : State) : Result := if s.LaunchOk then .next s else .refused .launchNotAllowed

end Sys2Proof.Machine
end

