-- ==== Sys2Proof/Machine/SubSp.lean ====
section
/-! DEFINITION. The meanings of the six encodings of SUB, SUBS (SP minus immediate) (40_sub_sp_imm.md rules R51 to R58),
each the shared Execute over its own operands, condition source and length. -/

namespace Sys2Proof.Machine

/-- R51; R57 where `Rd` is the PC. -/
def execSubA1 (cond rd : BitVec 4) (imm12 : BitVec 12) (s : State) : Result :=
  guarded (.subA1 cond rd imm12) (executeA32 Config.params cond (operandsA1 false rd imm12)) s

/-- R52; R58 where `Rd` is the PC. -/
def execSubsA1 (cond rd : BitVec 4) (imm12 : BitVec 12) (s : State) : Result :=
  guarded (.subsA1 cond rd imm12) (executeA32 Config.params cond (operandsA1 true rd imm12)) s

/-- R53. -/
def execSubT1 (imm7 : BitVec 7) (s : State) : Result :=
  guarded (.subT1 imm7) (executeT32 Config.params 2 (operandsT1 imm7)) s

/-- R54. -/
def execSubT2 (ib : BitVec 1) (imm3 : BitVec 3) (rd : BitVec 4) (imm8 : BitVec 8) (s : State) : Result :=
  guarded (.subT2 ib imm3 rd imm8) (executeT32 Config.params 4 (operandsT2 false ib imm3 rd imm8)) s

/-- R55. -/
def execSubsT2 (ib : BitVec 1) (imm3 : BitVec 3) (rd : BitVec 4) (imm8 : BitVec 8) (s : State) : Result :=
  guarded (.subsT2 ib imm3 rd imm8) (executeT32 Config.params 4 (operandsT2 true ib imm3 rd imm8)) s

/-- R56. -/
def execSubT3 (ib : BitVec 1) (imm3 : BitVec 3) (rd : BitVec 4) (imm8 : BitVec 8) (s : State) : Result :=
  guarded (.subT3 ib imm3 rd imm8) (executeT32 Config.params 4 (operandsT3 ib imm3 rd imm8)) s

end Sys2Proof.Machine
end

