-- ==== Sys2Proof/Machine/Dispatch.lean ====
section
/-! DEFINITION. Which meaning each instruction has: one arm per constructor. -/

namespace Sys2Proof.Machine

def exec (i : Instr) (s : State) : Host.Outcome State Fault Refusal :=
  match i with
  | .subA1 cond rd imm12 => Sys2Proof.Machine.execSubA1 cond rd imm12 s
  | .subsA1 cond rd imm12 => Sys2Proof.Machine.execSubsA1 cond rd imm12 s
  | .subT1 imm7 => Sys2Proof.Machine.execSubT1 imm7 s
  | .subT2 ib imm3 rd imm8 => Sys2Proof.Machine.execSubT2 ib imm3 rd imm8 s
  | .subsT2 ib imm3 rd imm8 => Sys2Proof.Machine.execSubsT2 ib imm3 rd imm8 s
  | .subT3 ib imm3 rd imm8 => Sys2Proof.Machine.execSubT3 ib imm3 rd imm8 s

end Sys2Proof.Machine
end

