-- ==== Sys2Proof/Machine/Step.lean ====
section
/-! DEFINITION. One step: fetch and decode the instruction at the pc, then run it (60_exceptions.md rule R84). -/

namespace Sys2Proof.Machine

/-- R84, D21: every instruction is one step. -/
def step (s : State) : Host.Outcome State Fault Refusal :=
  match fetch s with
  | .next i => exec i s
  | .fault r => .fault r
  | .refused r => .refused r

/-- An opcode-table word placed where the next fetch reads it, with the instruction set state it needs (log entry 5). -/
def State.withFetchWord (s : State) (nbits w : Nat) : State :=
  s.place (tableBytes nbits w).1 (tableBytes nbits w).2

end Sys2Proof.Machine
end

