-- ==== Sys2Proof/Safety.lean ====
section
/-! DEFINITION. What counts as a good state and a good run: a run from its launch (70_reset_and_hazards.md rule R90) to its
end (R94, D18), the invariant every step keeps, and the words frame statements use. -/

namespace Sys2Proof.Machine

/-- R94, D18: END, an address with the instruction set state expected there. -/
structure EndPoint where
  addr : Word
  t : Bool
  deriving DecidableEq, Repr

/-- R94, D18: `pc` and `T` are END's, and END holds no program text. -/
def EndPoint.reached (e : EndPoint) (s : State) : Bool :=
  s.pc == e.addr && s.pstate.t == e.t && (s.mem.read s.pc.toNat).isNone

/-- R94: how a run has gone after some steps. -/
inductive RunEnd where
  /-- The run ended normally: after a step, `pc` and `T` are END's. -/
  | ended (s : State)
  /-- A fault, the stuck cases of R24 among them. -/
  | fault (r : Fault)
  | refused (r : Refusal)
  /-- No end within the steps allowed. -/
  | running (s : State)
  deriving DecidableEq, Repr

/-- R94, D18: run at most `k` steps. The run ends normally where, after a step, END is reached; nothing is fetched there.
Before the first step END is not looked at, so a run launched at END is stuck there like at any address without text. -/
def runTo (e : EndPoint) : Nat → State → RunEnd
  | 0, s => .running s
  | k + 1, s =>
    match step s with
    | .next t => if e.reached t then .ended t else runTo e k t
    | .fault r => .fault r
    | .refused r => .refused r

/-- R90, R94: a run from a launch state, at most `k` steps of it. -/
def runFrom (e : EndPoint) (k : Nat) (s : State) : RunEnd :=
  match launch s with
  | .next t => runTo e k t
  | .fault r => .fault r
  | .refused r => .refused r

/-- The IT bits of an SPSR (R18). -/
def spsrIt (w : Word) : BitVec 8 := w.extractLsb' 10 6 ++ w.extractLsb' 25 2

/-- The invariant that every step keeps: the program text is in canonical form; the mode is implemented (R90); no SPSR
names A32 state with a non-zero IT; and, outside the illegal-execution state, the pc is aligned for the instruction set
state (R24) and IT is zero in A32 state (R70). -/
def State.Inv (s : State) : Prop :=
  s.mem.wf
    ∧ s.pstate.m.implemented = true
    ∧ (∀ m w, s.spsr.get m = some w → spsrIt w ≠ 0 → w.getLsbD 5 = true)
    ∧ (s.pstate.il = false →
        s.pcAligned = true ∧ (s.pstate.t = false → s.pstate.it = 0))

/-- R52, R72: the flags after a flag-setting subtraction `x - imm32`, by their closed forms. -/
def PState.subFlags (p : PState) (x imm32 : Word) : PState :=
  { p with
    n := (x - imm32).msb
    z := decide (x = imm32)
    c := decide (imm32.toNat ≤ x.toNat)
    v := decide (x.toInt - imm32.toInt < -2 ^ 31 ∨ 2 ^ 31 - 1 < x.toInt - imm32.toInt) }

/-- The register an instruction writes, where that is not the pc (R12). -/
def destination : Instr → Option Nat
  | .subA1 _ rd _ | .subsA1 _ rd _ => if rd = 0xF#4 then none else some rd.toNat
  | .subT1 _ => some 13
  | .subT2 _ _ rd _ | .subsT2 _ _ rd _ | .subT3 _ _ rd _ => if rd = 0xF#4 then none else some rd.toNat

/-- R13: register number `n` is the same physical copy in modes `m` and `m'`. -/
def sameCopy (n : Nat) (m m' : Mode) : Bool :=
  if n < 8 then true
  else if n < 13 then (m == .fiq) == (m' == .fiq)
  else if n = 13 then m == m' || ([Mode.user, .system].contains m && [Mode.user, .system].contains m')
  else m == m' || ([Mode.user, .system, .hyp].contains m && [Mode.user, .system, .hyp].contains m')

end Sys2Proof.Machine
end

