-- ==== Sys2Proof/Certificates/Slice0/Obligations.lean ====
section
/-! DEFINITION. The statements for the provers. Each docstring names the rule of spec/ it formalises. -/

open Sys2Proof Sys2Proof.Machine

/-! ## Encoding -/

/-- 95_test_vectors.md sections 2.1 to 2.4: one word of each encoding decodes to the instruction it stands for, for
either setting of the zero-byte switch. -/
def Obligations.DecodesVectorWords : Prop :=
  ∀ zb : Bool,
    decodeBytesWith zb false [0x10, 0xD0, 0x4D, 0xE2] = .ok (.subA1 0xE 13 0x010, [])
      ∧ decodeBytesWith zb false [0x02, 0x21, 0x5D, 0x12] = .ok (.subsA1 0x1 2 0x102, [])
      ∧ decodeBytesWith zb true [0xFF, 0xB0] = .ok (.subT1 0x7F, [])
      ∧ decodeBytesWith zb true [0xAD, 0xF5, 0xFF, 0x77] = .ok (.subT2 1 7 7 0xFF, [])
      ∧ decodeBytesWith zb true [0xBD, 0xF1, 0xFF, 0x48] = .ok (.subsT2 0 4 8 0xFF, [])
      ∧ decodeBytesWith zb true [0xAD, 0xF6, 0xFF, 0x7D] = .ok (.subT3 1 7 13 0xFF, [])

/-- R30 to R34: decoding what the encoder writes for a well-formed instruction gives it back, with every operand at
every value its encoding admits, whatever follows it and for either setting of the zero-byte switch. -/
def Obligations.DecodeOfEncode : Prop :=
  ∀ (zb : Bool) (i : Instr) (rest : List Byte), i.wfWith zb = true →
    decodeBytesWith zb i.isT32 (encode i ++ rest) = .ok (i, rest)

/-- R34, R41: whatever bytes the decoder accepts are the encoding of the instruction it gives, which is well formed and
of a class of the instruction set state it decoded in. -/
def Obligations.EncodeOfDecode : Prop :=
  ∀ (zb t : Bool) (bytes : List Byte) (i : Instr) (rest : List Byte),
    decodeBytesWith zb t bytes = .ok (i, rest) →
      bytes = encode i ++ rest ∧ i.isT32 = t ∧ i.wfWith zb = true

/-- R40, R41: the patterns the table of R40 turns away, for every value of their other fields: A1 with `cond` 1111 and
T2 with S = 1 and `Rd` 1111 are not in the spec, T2 with S = 0 and T3 with `Rd` 1111 are UNPREDICTABLE, and the
zero-byte immediates are turned away where the switch is off and accepted where it is on. -/
def Obligations.DecodeTurnsAway : Prop :=
  ∀ (zb : Bool) (rd : BitVec 4) (imm12 : BitVec 12) (ib : BitVec 1) (imm3 : BitVec 3) (imm8 : BitVec 8),
    decodeA32With zb (0xF#4 ++ 0x24D#12 ++ rd ++ imm12) = .error (.notInSpec (0xF#4 ++ 0x24D#12 ++ rd ++ imm12))
      ∧ decodeA32With zb (0xF#4 ++ 0x25D#12 ++ rd ++ imm12) = .error (.notInSpec (0xF#4 ++ 0x25D#12 ++ rd ++ imm12))
      ∧ decodeT32With zb (0b11110#5 ++ ib ++ 0b0110101101#10) (0#1 ++ imm3 ++ 0xF#4 ++ imm8)
          = .error (.unpredictable .t2SubRdPc)
      ∧ decodeT32With zb (0b11110#5 ++ ib ++ 0b0110111101#10) (0#1 ++ imm3 ++ 0xF#4 ++ imm8)
          = .error (.notInSpec ((0b11110#5 ++ ib ++ 0b0110111101#10) ++ (0#1 ++ imm3 ++ 0xF#4 ++ imm8)))
      ∧ decodeT32With zb (0b11110#5 ++ ib ++ 0b1010101101#10) (0#1 ++ imm3 ++ 0xF#4 ++ imm8)
          = .error (.unpredictable .t3RdPc)
      ∧ (rd ≠ 0xF#4 → isZeroByteForm ib imm3 imm8 = true →
          decodeT32With false (0b11110#5 ++ ib ++ 0b0110101101#10) (0#1 ++ imm3 ++ rd ++ imm8)
              = .error (.unpredictable .t32ExpandImmZeroByte)
            ∧ decodeT32With false (0b11110#5 ++ ib ++ 0b0110111101#10) (0#1 ++ imm3 ++ rd ++ imm8)
              = .error (.unpredictable .t32ExpandImmZeroByte)
            ∧ decodeT32With true (0b11110#5 ++ ib ++ 0b0110101101#10) (0#1 ++ imm3 ++ rd ++ imm8)
              = .ok (.subT2 ib imm3 rd imm8)
            ∧ decodeT32With true (0b11110#5 ++ ib ++ 0b0110111101#10) (0#1 ++ imm3 ++ rd ++ imm8)
              = .ok (.subsT2 ib imm3 rd imm8))

/-- R41, D22: bits that match none of the six encodings are turned away as not in the spec, with those bits: an A32 word
outside class A1, a T32 halfword that announces no second one outside class T1, and a T32 pair outside classes T2 and T3
(the class tests of 95_test_vectors.md sections 2.1 to 2.4). -/
def Obligations.OtherBitsNotInSpec : Prop :=
  ∀ (zb : Bool) (b0 b1 b2 b3 : Byte) (rest : List Byte),
    let word := wordOfBytes b0 b1 b2 b3
    let hw1 := halfOfBytes b0 b1
    let hw2 := halfOfBytes b2 b3
    (word &&& 0x0FEF0000#32 ≠ 0x024D0000#32 ∨ word.extractLsb' 28 4 = 0xF#4 →
        decodeBytesWith zb false (b0 :: b1 :: b2 :: b3 :: rest) = .error (.notInSpec word))
      ∧ (hw1.extractLsb' 11 5 ∉ [0b11101#5, 0b11110#5, 0b11111#5] → hw1 &&& 0xFF80#16 ≠ 0xB080#16 →
        decodeBytesWith zb true (b0 :: b1 :: rest) = .error (.notInSpec (0#16 ++ hw1)))
      ∧ (hw1.extractLsb' 11 5 ∈ [0b11101#5, 0b11110#5, 0b11111#5] →
        (hw1 &&& 0xFBEF#16 ≠ 0xF1AD#16 ∧ hw1 &&& 0xFBFF#16 ≠ 0xF2AD#16) ∨ hw2.getLsbD 15 = true →
        decodeBytesWith zb true (b0 :: b1 :: b2 :: b3 :: rest) = .error (.notInSpec (hw1 ++ hw2)))

/-! ## Fetch and step -/

/-- R84: when the bytes at the pc decode to an instruction, a step is exec of it. (No bookkeeping is added around exec:
the meaning itself moves the pc.) The illegal-execution premise is the model's, log entry 17. -/
def Obligations.StepRunsDecodedInstruction : Prop :=
  ∀ (s : State) (i : Instr) (rest : List Byte), s.pstate.il = false → s.pcAligned = true →
    decodeBytes s.pstate.t (s.mem.window s.pc.toNat 4) = .ok (i, rest) → step s = exec i s

/-- R84 steps 2 and 3: a step at bytes that the decoder turns away ends in that refusal, whatever the flags and the IT
state. -/
def Obligations.StepTurnsAway : Prop :=
  ∀ (s : State) (r : Reject), s.pstate.il = false → s.pcAligned = true →
    decodeBytes s.pstate.t (s.mem.window s.pc.toNat 4) = .error r →
      (∀ bits, r = .notInSpec bits → step s = .refused (.notInSpec bits))
        ∧ (∀ u, r = .unpredictable u → step s = .refused (.unpredictable u))

/-- R24: a misaligned pc, and a fetch of an instruction some byte of which the program text does not hold, have no step
(the model's stuck faults, log entries 6 and 8). -/
def Obligations.FetchStuck : Prop :=
  ∀ s : State, s.pstate.il = false →
    (s.pstate.t = false → s.pc.extractLsb' 0 2 ≠ 0#2 → step s = .fault (.pcMisaligned s.pc))
      ∧ (s.pstate.t = true → s.pc.getLsbD 0 = true → step s = .fault (.pcMisaligned s.pc))
      ∧ (s.pstate.t = false → s.pc.extractLsb' 0 2 = 0#2 → (∃ k, k < 4 ∧ s.mem.read (s.pc.toNat + k) = none) →
          step s = .fault (.noText s.pc))
      ∧ (s.pstate.t = true → s.pc.getLsbD 0 = false → (∃ k, k < 2 ∧ s.mem.read (s.pc.toNat + k) = none) →
          step s = .fault (.noText s.pc))
      ∧ (∀ b0 b1, s.pstate.t = true → s.pc.getLsbD 0 = false →
          s.mem.read s.pc.toNat = some b0 → s.mem.read (s.pc.toNat + 1) = some b1 →
          isLongT32 (halfOfBytes b0 b1) = true → (∃ k, k < 4 ∧ s.mem.read (s.pc.toNat + k) = none) →
          step s = .fault (.noText s.pc))

/-- Log entry 17 (the model's choice): no instruction runs in the illegal-execution state. -/
def Obligations.IllegalExecutionStateStops : Prop :=
  ∀ s : State, s.pstate.il = true → step s = .fault (.illegalExecutionState s.pc)

/-- R22, R23: an instruction placed at an aligned pc, inside the address space, is the one fetched there. -/
def Obligations.PlacedInstructionIsFetched : Prop :=
  ∀ (s : State) (i : Instr), i.wf = true → s.pstate.il = false → s.pc.toNat + i.len ≤ 2 ^ 32 →
    (if i.isT32 then s.pc.getLsbD 0 = false else s.pc.extractLsb' 0 2 = 0#2) →
      fetch (s.place i.isT32 (encode i)) = .next i

/-! ## Arithmetic, immediates, conditions -/

/-- R72: the subtraction as the instruction performs it, its result and its four flags by their closed forms. -/
def Obligations.SubtractionAndFlags : Prop :=
  ∀ x imm32 : Word,
    let r := addWithCarry x (~~~imm32) true
    r.1.toNat = (2 ^ 32 + x.toNat - imm32.toNat) % 2 ^ 32
      ∧ r.2.getLsbD 1 = decide (imm32.toNat ≤ x.toNat)
      ∧ r.2.getLsbD 2 = decide (x.toNat = imm32.toNat)
      ∧ r.2.getLsbD 3 = r.1.getLsbD 31
      ∧ r.2.getLsbD 0 = decide (¬(-2 ^ 31 ≤ x.toInt - imm32.toInt ∧ x.toInt - imm32.toInt ≤ 2 ^ 31 - 1))
      ∧ r.2.getLsbD 0 = (x.getLsbD 31 != imm32.getLsbD 31 && r.1.getLsbD 31 != x.getLsbD 31)

/-- R64, with R73: bit `j` of the A1 immediate is bit `(j + amount) mod 32` of its low byte, where the amount is twice the
top four bits; and the sixteen rotations of 0xFF. -/
def Obligations.A32ImmediateIsRotation : Prop :=
  (∀ (imm12 : BitVec 12) (j : Nat), j < 32 →
      (a32ExpandImm imm12).getLsbD j
        = (imm12.extractLsb' 0 8).getLsbD ((j + 2 * (imm12.extractLsb' 8 4).toNat) % 32))
    ∧ (List.range 16).map (fun r => a32ExpandImm (BitVec.ofNat 12 (256 * r + 255)))
        = [0x000000FF, 0xC000003F, 0xF000000F, 0xFC000003, 0xFF000000, 0x3FC00000, 0x0FF00000, 0x03FC0000,
            0x00FF0000, 0x003FC000, 0x000FF000, 0x0003FC00, 0x0000FF00, 0x00003FC0, 0x00000FF0, 0x000003FC]

/-- R65 with the zero-byte forms admitted (log entry 11): the four replicated forms, and otherwise an 8-bit value with its
top bit set rotated right by 8 to 31. -/
def Obligations.T32ImmediateForms : Prop :=
  ∀ imm12 : BitVec 12,
    let b := (imm12.extractLsb' 0 8).toNat
    let top := (imm12.extractLsb' 8 4).toNat
    (top = 0 → (t32ExpandImm imm12).toNat = b)
      ∧ (top = 1 → (t32ExpandImm imm12).toNat = 0x00010001 * b)
      ∧ (top = 2 → (t32ExpandImm imm12).toNat = 0x01000100 * b)
      ∧ (top = 3 → (t32ExpandImm imm12).toNat = 0x01010101 * b)
      ∧ (4 ≤ top →
          8 ≤ (imm12.extractLsb' 7 5).toNat
            ∧ ∀ j, j < 32 → (t32ExpandImm imm12).getLsbD j
                = (0b1#1 ++ (imm12.extractLsb' 0 7 : BitVec 7)).getLsbD ((j + (imm12.extractLsb' 7 5).toNat) % 32))

/-- R66: ConditionHolds at all sixteen values (1111, no condition of any instruction, holds like 1110), and the condition a
T32 instruction takes from IT. -/
def Obligations.ConditionTable : Prop :=
  ∀ p : PState,
    conditionHolds 0x0 p = p.z ∧ conditionHolds 0x1 p = !p.z
      ∧ conditionHolds 0x2 p = p.c ∧ conditionHolds 0x3 p = !p.c
      ∧ conditionHolds 0x4 p = p.n ∧ conditionHolds 0x5 p = !p.n
      ∧ conditionHolds 0x6 p = p.v ∧ conditionHolds 0x7 p = !p.v
      ∧ conditionHolds 0x8 p = (p.c && !p.z) ∧ conditionHolds 0x9 p = (!p.c || p.z)
      ∧ conditionHolds 0xA p = (p.n == p.v) ∧ conditionHolds 0xB p = (p.n != p.v)
      ∧ conditionHolds 0xC p = (!p.z && p.n == p.v) ∧ conditionHolds 0xD p = (p.z || p.n != p.v)
      ∧ conditionHolds 0xE p = true ∧ conditionHolds 0xF p = true
      ∧ (p.it.extractLsb' 0 4 ≠ 0#4 → p.it.extractLsb' 4 4 ≠ 0xF#4 → currentCondT32 p = .ok (p.it.extractLsb' 4 4))
      ∧ (p.it = 0 → currentCondT32 p = .ok 0xE ∧ ∀ cond, currentCondA32 cond p = .ok cond)

/-- R70: ITAdvance, and that it happens after every T32 instruction, passed or failed; in A32 state IT is zero, or the
instruction is refused (log entry 19), and a launch state with it otherwise is not accepted. -/
def Obligations.ItStateAdvances : Prop :=
  (∀ it : BitVec 8, it.extractLsb' 0 3 = 0#3 → itAdvance it = 0)
    ∧ (∀ it : BitVec 8, it.extractLsb' 0 3 ≠ 0#3 →
        (itAdvance it).extractLsb' 5 3 = it.extractLsb' 5 3
          ∧ ((itAdvance it).extractLsb' 0 5).toNat = (it.extractLsb' 0 5).toNat * 2 % 32)
    ∧ (∀ (i : Instr) (s t : State), i.isT32 = true → exec i s = .next t → t.pstate.it = itAdvance s.pstate.it)
    ∧ (∀ (i : Instr) (s : State), i.isT32 = false → i.wf = true → s.pstate.it ≠ 0 →
        exec i s = .refused (.unpredictable .itStateInconsistent))
    ∧ (∀ s : State, s.pstate.t = false → s.pstate.it ≠ 0 → ¬s.LaunchOk)

/-- R17: the mode encodings; every other value of the M field is reserved. -/
def Obligations.ModeEncodings : Prop :=
  Mode.ofBits 0b10000 = some .user ∧ Mode.ofBits 0b10001 = some .fiq ∧ Mode.ofBits 0b10010 = some .irq
    ∧ Mode.ofBits 0b10011 = some .supervisor ∧ Mode.ofBits 0b10110 = some .monitor
    ∧ Mode.ofBits 0b10111 = some .abort ∧ Mode.ofBits 0b11010 = some .hyp
    ∧ Mode.ofBits 0b11011 = some .undefined ∧ Mode.ofBits 0b11111 = some .system
    ∧ ∀ b : BitVec 5, b ∉ [16#5, 17#5, 18#5, 19#5, 22#5, 23#5, 26#5, 27#5, 31#5] → Mode.ofBits b = none

/-! ## What each instruction does -/

/-- R51: SUB (A1) with a destination other than the pc. -/
def Obligations.SubA1Result : Prop :=
  ∀ (cond rd : BitVec 4) (imm12 : BitVec 12), cond ≠ 0xF#4 → rd ≠ 0xF#4 →
    (∀ zb, decodeA32With zb (cond ++ 0b001001001101#12 ++ rd ++ imm12) = .ok (.subA1 cond rd imm12))
      ∧ ∀ s : State, s.pstate.it = 0 → s.pc.toNat + 4 < 2 ^ 32 →
        exec (.subA1 cond rd imm12) s = .next
          (if conditionHolds cond s.pstate then
            (s.writeReg rd.toNat
              (BitVec.ofNat 32 (2 ^ 32 + (s.readReg 13).toNat - (a32ExpandImm imm12).toNat))).setPc (s.pc + 4)
          else s.setPc (s.pc + 4))

/-- R52: SUBS (A1) with a destination other than the pc. -/
def Obligations.SubsA1Result : Prop :=
  ∀ (cond rd : BitVec 4) (imm12 : BitVec 12), cond ≠ 0xF#4 → rd ≠ 0xF#4 →
    (∀ zb, decodeA32With zb (cond ++ 0b001001011101#12 ++ rd ++ imm12) = .ok (.subsA1 cond rd imm12))
      ∧ ∀ s : State, s.pstate.it = 0 → s.pc.toNat + 4 < 2 ^ 32 →
        exec (.subsA1 cond rd imm12) s = .next
          (if conditionHolds cond s.pstate then
            ((s.writeReg rd.toNat (s.readReg 13 - a32ExpandImm imm12)).setPState
              (s.pstate.subFlags (s.readReg 13) (a32ExpandImm imm12))).setPc (s.pc + 4)
          else s.setPc (s.pc + 4))

/-- R53: SUB (T1). -/
def Obligations.SubT1Result : Prop :=
  ∀ imm7 : BitVec 7,
    decodeT16 (0b101100001#9 ++ imm7) = .ok (.subT1 imm7)
      ∧ ∀ (s : State) (cond : BitVec 4), currentCondT32 s.pstate = .ok cond → s.pc.toNat + 2 < 2 ^ 32 →
        exec (.subT1 imm7) s = .next
          (((if conditionHolds cond s.pstate then
              s.writeReg 13 (BitVec.ofNat 32 (2 ^ 32 + (s.readReg 13).toNat - 4 * imm7.toNat))
            else s).setPState s.pstate.advanceIt).setPc (s.pc + 2))

/-- R54: SUB (T2), its UNPREDICTABLE case included, refused whatever the condition (log entry 10); the zero-byte immediates, which the model admits (log entry 11), give
the value of R65. -/
def Obligations.SubT2Result : Prop :=
  ∀ (ib : BitVec 1) (imm3 : BitVec 3) (rd : BitVec 4) (imm8 : BitVec 8),
    (rd = 0xF#4 →
        (∀ zb, decodeT32With zb (0b11110#5 ++ ib ++ 0b0110101101#10) (0#1 ++ imm3 ++ rd ++ imm8)
            = .error (.unpredictable .t2SubRdPc))
          ∧ ∀ s : State, exec (.subT2 ib imm3 rd imm8) s = .refused (.unpredictable .t2SubRdPc))
      ∧ (rd ≠ 0xF#4 →
        decodeT32With Config.admitT32ZeroByte (0b11110#5 ++ ib ++ 0b0110101101#10) (0#1 ++ imm3 ++ rd ++ imm8)
            = .ok (.subT2 ib imm3 rd imm8)
          ∧ ∀ (s : State) (cond : BitVec 4), currentCondT32 s.pstate = .ok cond → s.pc.toNat + 4 < 2 ^ 32 →
            exec (.subT2 ib imm3 rd imm8) s = .next
              (((if conditionHolds cond s.pstate then
                  s.writeReg rd.toNat
                    (BitVec.ofNat 32 (2 ^ 32 + (s.readReg 13).toNat - (t32ExpandImm (ib ++ imm3 ++ imm8)).toNat))
                else s).setPState s.pstate.advanceIt).setPc (s.pc + 4)))

/-- R55: SUBS (T2), and that the pattern with `Rd` 1111 is not this instruction; the zero-byte immediates, which the model
admits (log entry 11), give the value of R65. -/
def Obligations.SubsT2Result : Prop :=
  ∀ (ib : BitVec 1) (imm3 : BitVec 3) (rd : BitVec 4) (imm8 : BitVec 8),
    (rd = 0xF#4 → ∀ zb,
        decodeT32With zb (0b11110#5 ++ ib ++ 0b0110111101#10) (0#1 ++ imm3 ++ rd ++ imm8)
          = .error (.notInSpec ((0b11110#5 ++ ib ++ 0b0110111101#10) ++ (0#1 ++ imm3 ++ rd ++ imm8))))
      ∧ (rd ≠ 0xF#4 →
        decodeT32With Config.admitT32ZeroByte (0b11110#5 ++ ib ++ 0b0110111101#10) (0#1 ++ imm3 ++ rd ++ imm8)
            = .ok (.subsT2 ib imm3 rd imm8)
          ∧ ∀ (s : State) (cond : BitVec 4), currentCondT32 s.pstate = .ok cond → s.pc.toNat + 4 < 2 ^ 32 →
            exec (.subsT2 ib imm3 rd imm8) s = .next
              ((if conditionHolds cond s.pstate then
                  (s.writeReg rd.toNat (s.readReg 13 - t32ExpandImm (ib ++ imm3 ++ imm8))).setPState
                    (s.pstate.subFlags (s.readReg 13) (t32ExpandImm (ib ++ imm3 ++ imm8))).advanceIt
                else s.setPState s.pstate.advanceIt).setPc (s.pc + 4)))

/-- R56: SUBW (T3), its UNPREDICTABLE case included, refused whatever the condition (log entry 10). -/
def Obligations.SubT3Result : Prop :=
  ∀ (ib : BitVec 1) (imm3 : BitVec 3) (rd : BitVec 4) (imm8 : BitVec 8),
    (rd = 0xF#4 →
        (∀ zb, decodeT32With zb (0b11110#5 ++ ib ++ 0b1010101101#10) (0#1 ++ imm3 ++ rd ++ imm8)
            = .error (.unpredictable .t3RdPc))
          ∧ ∀ s : State, exec (.subT3 ib imm3 rd imm8) s = .refused (.unpredictable .t3RdPc))
      ∧ (rd ≠ 0xF#4 →
        (∀ zb, decodeT32With zb (0b11110#5 ++ ib ++ 0b1010101101#10) (0#1 ++ imm3 ++ rd ++ imm8)
            = .ok (.subT3 ib imm3 rd imm8))
          ∧ ∀ (s : State) (cond : BitVec 4), currentCondT32 s.pstate = .ok cond → s.pc.toNat + 4 < 2 ^ 32 →
            exec (.subT3 ib imm3 rd imm8) s = .next
              (((if conditionHolds cond s.pstate then
                  s.writeReg rd.toNat
                    (BitVec.ofNat 32
                      (2 ^ 32 + (s.readReg 13).toNat - (ib.toNat * 2048 + imm3.toNat * 256 + imm8.toNat)))
                else s).setPState s.pstate.advanceIt).setPc (s.pc + 4)))

/-- R57, R68: SUB to the pc (A1) is an interworking branch in A32 state. A target with bits 1:0 equal to 10 is refused (the
spec's ruling D20, log entry 13). -/
def Obligations.SubPcBranches : Prop :=
  ∀ (cond : BitVec 4) (imm12 : BitVec 12) (s : State), cond ≠ 0xF#4 → s.pstate.t = false → s.pstate.it = 0 →
    let r := s.readReg 13 - a32ExpandImm imm12
    (conditionHolds cond s.pstate = true →
        (r.getLsbD 0 = true → exec (.subA1 cond 0xF imm12) s
            = .next ((s.setPState { s.pstate with t := true }).setPc (BitVec.ofNat 32 (r.toNat / 2 * 2))))
          ∧ (r.toNat % 4 = 0 → exec (.subA1 cond 0xF imm12) s = .next (s.setPc r))
          ∧ (r.toNat % 4 = 2 →
            exec (.subA1 cond 0xF imm12) s = .refused (.unpredictable .a32BranchTargetMisaligned)))
      ∧ (conditionHolds cond s.pstate = false → s.pc.toNat + 4 < 2 ^ 32 →
        exec (.subA1 cond 0xF imm12) s = .next (s.setPc (s.pc + 4)))

/-- R58, R69, R86: SUBS to the pc (A1) in a mode with an SPSR other than Hyp, where the SPSR describes a legal return: the
PE branches to the result and PSTATE is restored from the SPSR of the current mode. The legality premise is the outline
of R69 as the model reads it (log entry 15). -/
def Obligations.SubsPcReturns : Prop :=
  ∀ (cond : BitVec 4) (imm12 : BitVec 12) (s : State) (w : Word) (target : Mode), cond ≠ 0xF#4 → s.pstate.it = 0 →
    conditionHolds cond s.pstate = true → s.pstate.m ≠ .hyp → s.spsr.get s.pstate.m = some w →
    Mode.ofBits (w.extractLsb' 0 5) = some target → target.implemented = true →
    (target = .hyp → s.pstate.m = .monitor) →
    (target = .monitor → s.pstate.m = .monitor ∨ s.security = .secure) →
      let r := s.readReg 13 - a32ExpandImm imm12
      ∃ t, exec (.subsA1 cond 0xF imm12) s = .next t
        ∧ t.pstate = { s.pstate.restoreAlways w with il := w.getLsbD 20, t := w.getLsbD 5, m := target }
        ∧ (w.getLsbD 20 = false → w.getLsbD 5 = true → t.pc = r - BitVec.ofNat 32 (r.toNat % 2))
        ∧ (w.getLsbD 20 = false → w.getLsbD 5 = false → t.pc = r - BitVec.ofNat 32 (r.toNat % 4))
        ∧ (w.getLsbD 20 = true → t.pc.toNat / 4 = r.toNat / 4)
        ∧ t.exclusiveMonitor = false ∧ t.eventRegister = true

/-- R18: what `restoreAlways` takes from each bit of the SPSR, and what it leaves (R69; the field list is the model's
reading, log entry 14). -/
def Obligations.RestoredFields : Prop :=
  ∀ (p : PState) (w : Word),
    let q := p.restoreAlways w
    (q.n, q.z, q.c, q.v, q.q) = (w.getLsbD 31, w.getLsbD 30, w.getLsbD 29, w.getLsbD 28, w.getLsbD 27)
      ∧ q.it.toNat = (w.extractLsb' 10 6).toNat * 4 + (w.extractLsb' 25 2).toNat
      ∧ (q.dit, q.ssbs, q.pan, q.ss) = (w.getLsbD 24, w.getLsbD 23, w.getLsbD 22, w.getLsbD 21)
      ∧ q.ge = w.extractLsb' 16 4
      ∧ (q.e, q.a, q.i, q.f) = (w.getLsbD 9, w.getLsbD 8, w.getLsbD 7, w.getLsbD 6)
      ∧ (q.il, q.t, q.m) = (p.il, p.t, p.m)

/-- R69, R81: an illegal return (outline of R69, log entry 15) sets IL and leaves the mode and the instruction set state;
the flags and the other always-restored fields still come from the SPSR; the pc's low two bits are UNKNOWN. -/
def Obligations.IllegalReturnSetsIL : Prop :=
  ∀ (cond : BitVec 4) (imm12 : BitVec 12) (s : State) (w : Word), cond ≠ 0xF#4 → s.pstate.it = 0 →
    conditionHolds cond s.pstate = true → s.pstate.m ≠ .hyp → s.spsr.get s.pstate.m = some w →
    (Mode.ofBits (w.extractLsb' 0 5) = none
      ∨ (∃ target, Mode.ofBits (w.extractLsb' 0 5) = some target
        ∧ (target.implemented = false
          ∨ (target = .hyp ∧ s.pstate.m ≠ .monitor)
          ∨ (target = .monitor ∧ s.pstate.m ≠ .monitor ∧ s.security = .nonSecure)))) →
      ∃ t, exec (.subsA1 cond 0xF imm12) s = .next t
        ∧ t.pstate = { s.pstate.restoreAlways w with il := true }
        ∧ t.pc.toNat / 4 = (s.readReg 13 - a32ExpandImm imm12).toNat / 4
        ∧ t.exclusiveMonitor = false ∧ t.eventRegister = true

/-- R80, R58: SUBS to the pc in Hyp mode is undefined where its condition passes (a terminal fault, log entry 18), and
raises nothing where it fails. -/
def Obligations.SubsPcUndefinedInHyp : Prop :=
  ∀ (cond : BitVec 4) (imm12 : BitVec 12) (s : State), cond ≠ 0xF#4 → s.pstate.it = 0 → s.pstate.m = .hyp →
    (conditionHolds cond s.pstate = true → exec (.subsA1 cond 0xF imm12) s = .fault (.undefined s.pc))
      ∧ (conditionHolds cond s.pstate = false → s.pc.toNat + 4 < 2 ^ 32 →
        exec (.subsA1 cond 0xF imm12) s = .next (s.setPc (s.pc + 4)))

/-- R58, R82: SUBS to the pc in User or System mode is refused where its condition passes (the spec's ruling D9, log entry
12); where its condition fails it only advances, in every mode. -/
def Obligations.SubsPcInUserOrSystem : Prop :=
  ∀ (cond : BitVec 4) (imm12 : BitVec 12) (s : State), cond ≠ 0xF#4 → s.pstate.it = 0 →
    (conditionHolds cond s.pstate = true → s.pstate.m = .user ∨ s.pstate.m = .system →
        exec (.subsA1 cond 0xF imm12) s = .refused (.unpredictable .aluExcretUserSystem))
      ∧ (conditionHolds cond s.pstate = false → s.pc.toNat + 4 < 2 ^ 32 →
        exec (.subsA1 cond 0xF imm12) s = .next (s.setPc (s.pc + 4)))

/-- What the three parameters of the A1 forms with `Rd` 1111 decide, for every setting of them (admit_t32_zero_byte is in
DecodeTurnsAway). Off, each refuses: R6 and R58 (D9, D16), R57 (D20). On, `exceptionReturn` supplies D16's field with the
model's exception return (log entry 14); `permitUserSystemReturn` and `permitMisalignedTarget` have no such setting in the
spec, which refuses: they are the model's own (DESIGN CHOICE, log entries 12 and 13), and take one of the two behaviours
that R69 and R68 name, as a free value. -/
def Obligations.ParametersDecide : Prop :=
  ∀ (p : Config.Params) (cond : BitVec 4) (imm12 : BitVec 12) (s : State),
    s.pstate.t = false → s.pstate.it = 0 → conditionHolds cond s.pstate = true →
      let r := s.readReg 13 - a32ExpandImm imm12
      (r.toNat % 4 = 2 →
          if p.permitMisalignedTarget then
            ∃ t, executeA32 p cond (operandsA1 false 0xF imm12) s = .next t
              ∧ t.regs = s.regs ∧ t.pstate = s.pstate ∧ (t.pc = r ∨ t.pc = r - 2)
          else executeA32 p cond (operandsA1 false 0xF imm12) s = .refused (.unpredictable .a32BranchTargetMisaligned))
        ∧ (s.pstate.m = .user ∨ s.pstate.m = .system →
          if p.permitUserSystemReturn then
            s.pc.toNat + 4 < 2 ^ 32 →
              executeA32 p cond (operandsA1 true 0xF imm12) s = .fault (.undefined s.pc)
                ∨ executeA32 p cond (operandsA1 true 0xF imm12) s = .next (s.useFree.setPc (s.pc + 4))
          else executeA32 p cond (operandsA1 true 0xF imm12) s = .refused (.unpredictable .aluExcretUserSystem))
        ∧ (∀ w, s.pstate.m ≠ .hyp → s.spsr.get s.pstate.m = some w →
          executeA32 p cond (operandsA1 true 0xF imm12) s
            = if p.exceptionReturn then .next (exceptionReturn r w s) else .refused .exceptionReturnAbsent)

/-- The spec's values of the four parameters, and the machine's own, which set the two switches the spec provides (R6, D10,
D16; log entries 11 and 14). Of the four, R6's table has admit_t32_zero_byte, exception_return and
ALU_EXCRET_USER_SYSTEM; the refusal of a misaligned target is R57 and D20, and the parameter over it is the model's own
(log entry 13), as is the on-setting of ALU_EXCRET_USER_SYSTEM (log entry 12). -/
def Obligations.ParameterTable : Prop :=
  Config.tableParams = ⟨false, false, false, false⟩ ∧ Config.params = ⟨true, true, false, false⟩

/-- R14, R84: an instruction that would advance the pc to or past 2^32 is refused as a whole, for every form that does not
write the pc and for the A1 forms with `Rd` 1111 whose condition fails. -/
def Obligations.PcWrapRefused : Prop :=
  ∀ (i : Instr) (s : State), i.wf = true → 2 ^ 32 ≤ s.pc.toNat + i.len →
    (i.isT32 = true → (∃ cond, currentCondT32 s.pstate = .ok cond) → exec i s = .refused .pcWrap)
      ∧ (i.isT32 = false → s.pstate.it = 0 → destination i ≠ none → exec i s = .refused .pcWrap)
      ∧ (∀ cond imm12, i = .subA1 cond 0xF imm12 ∨ i = .subsA1 cond 0xF imm12 → s.pstate.it = 0 →
          conditionHolds cond s.pstate = false → exec i s = .refused .pcWrap)

/-- R66, D17: a T32 instruction in an inconsistent IT state is refused, whatever the flags (log entry 19). -/
def Obligations.InconsistentItRefused : Prop :=
  ∀ (i : Instr) (s : State), i.isT32 = true → i.wf = true →
    ((s.pstate.it.extractLsb' 0 4 ≠ 0#4 ∧ s.pstate.it.extractLsb' 4 4 = 0xF#4)
      ∨ (s.pstate.it.extractLsb' 0 4 = 0#4 ∧ s.pstate.it ≠ 0)) →
    exec i s = .refused (.unpredictable .itStateInconsistent)

/-! ## Frames -/

/-- Frame of SUB (A1 to a register, T1, T2, T3) (R50, R51, R53, R54, R56, R13, R20): no flag and no other PSTATE field but
IT changes (and IT only in T32 classes); every copy of every register but the destination's copy in the current mode, every
SPSR, every other field, and every byte of memory is unchanged. -/
def Obligations.SubFrame : Prop :=
  ∀ (i : Instr) (d : Nat) (s t : State),
    (∀ cond rd imm12, i ≠ .subsA1 cond rd imm12) → (∀ ib imm3 rd imm8, i ≠ .subsT2 ib imm3 rd imm8) →
    destination i = some d → exec i s = .next t →
      (∀ m n, n < 15 → ¬(n = d ∧ sameCopy n s.pstate.m m = true) → t.regs.read m n = s.regs.read m n)
        ∧ t.pstate = { s.pstate with it := t.pstate.it }
        ∧ (i.isT32 = false → t.pstate.it = s.pstate.it)
        ∧ t.spsr = s.spsr ∧ t.security = s.security ∧ t.exclusiveMonitor = s.exclusiveMonitor
        ∧ t.eventRegister = s.eventRegister ∧ t.freeCount = s.freeCount
        ∧ ∀ a, t.mem.read a = s.mem.read a

/-- Frame of SUBS (A1 to a register, T2) (R50, R52, R55, R13, R20): as for SUB, but N, Z, C and V may change, and they and
the destination only where the condition passes. -/
def Obligations.SubsFrame : Prop :=
  ∀ (i : Instr) (d : Nat) (s t : State),
    ((∃ cond rd imm12, i = .subsA1 cond rd imm12) ∨ (∃ ib imm3 rd imm8, i = .subsT2 ib imm3 rd imm8)) →
    destination i = some d → exec i s = .next t →
      (∀ m n, n < 15 → ¬(n = d ∧ sameCopy n s.pstate.m m = true) → t.regs.read m n = s.regs.read m n)
        ∧ t.pstate =
          { s.pstate with
            n := t.pstate.n, z := t.pstate.z, c := t.pstate.c, v := t.pstate.v, it := t.pstate.it }
        ∧ (∀ cond rd imm12, i = .subsA1 cond rd imm12 → conditionHolds cond s.pstate = false →
            t.pstate = s.pstate ∧ t.regs = s.regs)
        ∧ (∀ ib imm3 rd imm8 cond, i = .subsT2 ib imm3 rd imm8 → currentCondT32 s.pstate = .ok cond →
            conditionHolds cond s.pstate = false → t.pstate = s.pstate.advanceIt ∧ t.regs = s.regs)
        ∧ (i.isT32 = false → t.pstate.it = s.pstate.it)
        ∧ t.spsr = s.spsr ∧ t.security = s.security ∧ t.exclusiveMonitor = s.exclusiveMonitor
        ∧ t.eventRegister = s.eventRegister ∧ t.freeCount = s.freeCount
        ∧ ∀ a, t.mem.read a = s.mem.read a

/-- Frame of SUB to the pc (R57): no register, no SPSR, no PSTATE field but T, nothing else but the pc, and no byte of
memory. -/
def Obligations.SubPcFrame : Prop :=
  ∀ (cond : BitVec 4) (imm12 : BitVec 12) (s t : State), exec (.subA1 cond 0xF imm12) s = .next t →
    t.regs = s.regs ∧ t.pstate = { s.pstate with t := t.pstate.t }
      ∧ t.spsr = s.spsr ∧ t.security = s.security ∧ t.exclusiveMonitor = s.exclusiveMonitor
      ∧ t.eventRegister = s.eventRegister ∧ t.freeCount = s.freeCount
      ∧ ∀ a, t.mem.read a = s.mem.read a

/-- Frame of SUBS to the pc (R58, R69): no copy of any register, no SPSR, not the security state and no byte of memory; a
form whose condition fails changes nothing but the pc. -/
def Obligations.SubsPcFrame : Prop :=
  ∀ (cond : BitVec 4) (imm12 : BitVec 12) (s t : State), exec (.subsA1 cond 0xF imm12) s = .next t →
    t.regs = s.regs ∧ t.spsr = s.spsr ∧ t.security = s.security
      ∧ (conditionHolds cond s.pstate = false → t = s.setPc t.pc)
      ∧ ∀ a, t.mem.read a = s.mem.read a

/-! ## The whole machine -/

/-- R90: a launch state that breaks a constraint is refused, and no step of its run is taken; every other starts its run as
it is. (M is one of the nine modes by its type.) -/
def Obligations.LaunchIsChecked : Prop :=
  ∀ (e : EndPoint) (k : Nat) (s : State),
    ((s.pstate.t = false ∧ (s.pc.toNat % 4 ≠ 0 ∨ s.pstate.it ≠ 0))
        ∨ (s.pstate.t = true ∧ (s.pc.toNat % 2 ≠ 0
          ∨ (s.pstate.it.extractLsb' 0 4 ≠ 0#4 ∧ s.pstate.it.extractLsb' 4 4 = 0xF#4)))
        ∨ (s.pstate.m = .hyp ∧ Config.hasHyp = false) →
        launch s = .refused .launchNotAllowed ∧ runFrom e k s = .refused .launchNotAllowed)
      ∧ ((s.pstate.t = false → s.pc.toNat % 4 = 0 ∧ s.pstate.it = 0) →
        (s.pstate.t = true → s.pc.toNat % 2 = 0
          ∧ (s.pstate.it.extractLsb' 0 4 = 0#4 ∨ s.pstate.it.extractLsb' 4 4 ≠ 0xF#4)) →
        (s.pstate.m ≠ .hyp ∨ Config.hasHyp = true) →
        launch s = .next s ∧ runFrom e k s = runTo e k s)

/-- R24, R70, R90: every step keeps the invariant. (The restriction on SPSRs in it is the model's, log entry 19.) -/
def Obligations.StepKeepsInvariant : Prop :=
  ∀ s t : State, s.Inv → step s = .next t → t.Inv

/-- The state after reset meets the invariant (its values are the model's, log entries 1 to 3). -/
def Obligations.ResetMeetsInvariant : Prop := State.reset.Inv

/-- R90, D7 with log entries 1 to 3 (the model's values): reset is an acceptable launch state, holds no program text, and
has no step until a program is placed. -/
def Obligations.ResetState : Prop :=
  State.reset.LaunchOk ∧ (∀ a, State.reset.mem.read a = none)
    ∧ (∀ m n, n < 15 → State.reset.regs.read m n = 0)
    ∧ step State.reset = .fault (.noText 0)

/-- R86, R87: a step changes the mode only by the exception return, with its condition passed, in a mode that has an SPSR
and is not Hyp. -/
def Obligations.ModeChangesOnlyByReturn : Prop :=
  ∀ s t : State, step s = .next t → t.pstate.m ≠ s.pstate.m →
    (∃ cond imm12, fetch s = .next (.subsA1 cond 0xF imm12) ∧ conditionHolds cond s.pstate = true)
      ∧ s.pstate.m ≠ .user ∧ s.pstate.m ≠ .system ∧ s.pstate.m ≠ .hyp

/-- R87, R58, R13: what User mode (and System mode) cannot change: the mode, the masks and every PSTATE field but the flags,
IT and T; every SPSR; every register copy it does not see; the security state, the exclusive monitor, the event
register. -/
def Obligations.UserModeConfined : Prop :=
  ∀ s t : State, s.pstate.m = .user ∨ s.pstate.m = .system → step s = .next t →
    t.pstate =
        { s.pstate with
          n := t.pstate.n, z := t.pstate.z, c := t.pstate.c, v := t.pstate.v, it := t.pstate.it, t := t.pstate.t }
      ∧ t.spsr = s.spsr ∧ t.security = s.security ∧ t.exclusiveMonitor = s.exclusiveMonitor
      ∧ t.eventRegister = s.eventRegister
      ∧ ∀ m n, n < 15 → sameCopy n .user m = false → t.regs.read m n = s.regs.read m n

/-- R15, R17: a step changes the instruction set state only by an A1 instruction with `Rd` 1111. -/
def Obligations.InstructionSetChangesOnlyByPcWrite : Prop :=
  ∀ s t : State, step s = .next t → t.pstate.t ≠ s.pstate.t →
    ∃ cond imm12, fetch s = .next (.subA1 cond 0xF imm12) ∨ fetch s = .next (.subsA1 cond 0xF imm12)

/-- R21, R27: no run changes the program text. -/
def Obligations.ProgramTextImmutable : Prop :=
  ∀ (k : Nat) (s t : State), Sys2Proof.core.run k s = .next t → t.mem = s.mem

/-- R18: nothing in scope writes an SPSR, over any run. -/
def Obligations.SpsrNeverWritten : Prop :=
  ∀ (k : Nat) (s t : State), Sys2Proof.core.run k s = .next t → t.spsr = s.spsr ∧ t.security = s.security

/-- R11, R50: the SP is the only register an instruction reads. Two states that differ only in another register's copy, as
the current mode sees it, step alike and then differ at most in that copy. -/
def Obligations.OnlySpIsRead : Prop :=
  ∀ (i : Instr) (s t : State) (n : Nat) (v : Word), n < 15 → n ≠ 13 → exec i s = .next t →
    ∃ t', exec i (s.writeReg n v) = .next t'
      ∧ t'.pc = t.pc ∧ t'.pstate = t.pstate ∧ t'.spsr = t.spsr ∧ t'.security = t.security
      ∧ t'.exclusiveMonitor = t.exclusiveMonitor ∧ t'.eventRegister = t.eventRegister
      ∧ t'.freeCount = t.freeCount ∧ t'.mem = t.mem
      ∧ ∀ m k, k < 15 → ¬(k = n ∧ sameCopy n s.pstate.m m = true) → t'.regs.read m k = t.regs.read m k

/-- R94, D18: a run ends normally exactly where, after one or more of its steps, END is reached for the first time; and a
run that stands at END with no step taken is stuck there, END holding no text (the stuck fault of log entry 6). -/
def Obligations.RunEndsAfterStepAtEnd : Prop :=
  ∀ (e : EndPoint) (k : Nat) (s : State),
    (∀ t, runTo e k s = .ended t ↔
        ∃ j, 0 < j ∧ j ≤ k ∧ Sys2Proof.core.run j s = .next t ∧ e.reached t = true
          ∧ ∀ i u, 0 < i → i < j → Sys2Proof.core.run i s = .next u → e.reached u = false)
      ∧ (e.reached s = true → s.pstate.il = false → s.pcAligned = true → runTo e (k + 1) s = .fault (.noText s.pc))
end

