-- ==== Sys2Proof/Laws/Encoding.lean ====
section
/-! SUPPORT. The encoder bit by bit (30_encoding.md rules R30 to R33), the byte order (20_memory.md rule R23), and that the
rows of the opcode table do not overlap (R34). -/

namespace Sys2Proof

/-- R30, bit by bit. -/
theorem bits_subA1 (cond rd : BitVec 4) (imm12 : BitVec 12) (j : Nat) (h : j < 32) :
    (Instr.subA1 cond rd imm12).bits.getLsbD j =
      if j < 12 then imm12.getLsbD j
      else if j < 16 then rd.getLsbD (j - 12)
      else if j < 28 then (0x24D#12).getLsbD (j - 16)
      else cond.getLsbD (j - 28) := by
  have e : (Instr.subA1 cond rd imm12).bits.getLsbD j = BitVec.getLsbD (w := 4 + 4 + 3 + 1 + 4 + 4 + 12)
      (cond ++ 0b0010#4 ++ 0b010#3 ++ 0b0#1 ++ 0b1101#4 ++ rd ++ imm12) j := rfl
  rw [e]
  simp only [BitVec.getLsbD_append]
  interval_cases j <;> simp

/-- R30, bit by bit. -/
theorem bits_subsA1 (cond rd : BitVec 4) (imm12 : BitVec 12) (j : Nat) (h : j < 32) :
    (Instr.subsA1 cond rd imm12).bits.getLsbD j =
      if j < 12 then imm12.getLsbD j
      else if j < 16 then rd.getLsbD (j - 12)
      else if j < 28 then (0x25D#12).getLsbD (j - 16)
      else cond.getLsbD (j - 28) := by
  have e : (Instr.subsA1 cond rd imm12).bits.getLsbD j = BitVec.getLsbD (w := 4 + 4 + 3 + 1 + 4 + 4 + 12)
      (cond ++ 0b0010#4 ++ 0b010#3 ++ 0b1#1 ++ 0b1101#4 ++ rd ++ imm12) j := rfl
  rw [e]
  simp only [BitVec.getLsbD_append]
  interval_cases j <;> simp

/-- R31, bit by bit; the upper half is zero. -/
theorem bits_subT1 (imm7 : BitVec 7) (j : Nat) (h : j < 32) :
    (Instr.subT1 imm7).bits.getLsbD j =
      if j < 7 then imm7.getLsbD j else if j < 16 then (0b101100001#9).getLsbD (j - 7) else false := by
  have e : (Instr.subT1 imm7).bits.getLsbD j = BitVec.getLsbD (w := 16 + (8 + 1 + 7))
      (0#16 ++ (0b10110000#8 ++ 0b1#1 ++ imm7)) j := rfl
  rw [e]
  simp only [BitVec.getLsbD_append]
  interval_cases j <;> simp

/-- R32 with S = 0, bit by bit. -/
theorem bits_subT2 (ib : BitVec 1) (imm3 : BitVec 3) (rd : BitVec 4) (imm8 : BitVec 8) (j : Nat) (h : j < 32) :
    (Instr.subT2 ib imm3 rd imm8).bits.getLsbD j =
      if j < 8 then imm8.getLsbD j
      else if j < 12 then rd.getLsbD (j - 8)
      else if j < 15 then imm3.getLsbD (j - 12)
      else if j < 26 then (858#11).getLsbD (j - 15)
      else if j < 27 then ib.getLsbD (j - 26)
      else (0b11110#5).getLsbD (j - 27) := by
  have e : (Instr.subT2 ib imm3 rd imm8).bits.getLsbD j = BitVec.getLsbD (w := 5 + 1 + 1 + 4 + 1 + 4 + 1 + 3 + 4 + 8)
      (0b11110#5 ++ ib ++ 0b0#1 ++ 0b1101#4 ++ 0b0#1 ++ 0b1101#4 ++ 0b0#1 ++ imm3 ++ rd ++ imm8) j := rfl
  rw [e]
  simp only [BitVec.getLsbD_append]
  interval_cases j <;> simp

/-- R32 with S = 1, bit by bit. -/
theorem bits_subsT2 (ib : BitVec 1) (imm3 : BitVec 3) (rd : BitVec 4) (imm8 : BitVec 8) (j : Nat) (h : j < 32) :
    (Instr.subsT2 ib imm3 rd imm8).bits.getLsbD j =
      if j < 8 then imm8.getLsbD j
      else if j < 12 then rd.getLsbD (j - 8)
      else if j < 15 then imm3.getLsbD (j - 12)
      else if j < 26 then (890#11).getLsbD (j - 15)
      else if j < 27 then ib.getLsbD (j - 26)
      else (0b11110#5).getLsbD (j - 27) := by
  have e : (Instr.subsT2 ib imm3 rd imm8).bits.getLsbD j = BitVec.getLsbD (w := 5 + 1 + 1 + 4 + 1 + 4 + 1 + 3 + 4 + 8)
      (0b11110#5 ++ ib ++ 0b0#1 ++ 0b1101#4 ++ 0b1#1 ++ 0b1101#4 ++ 0b0#1 ++ imm3 ++ rd ++ imm8) j := rfl
  rw [e]
  simp only [BitVec.getLsbD_append]
  interval_cases j <;> simp

/-- R33, bit by bit. -/
theorem bits_subT3 (ib : BitVec 1) (imm3 : BitVec 3) (rd : BitVec 4) (imm8 : BitVec 8) (j : Nat) (h : j < 32) :
    (Instr.subT3 ib imm3 rd imm8).bits.getLsbD j =
      if j < 8 then imm8.getLsbD j
      else if j < 12 then rd.getLsbD (j - 8)
      else if j < 15 then imm3.getLsbD (j - 12)
      else if j < 26 then (1370#11).getLsbD (j - 15)
      else if j < 27 then ib.getLsbD (j - 26)
      else (0b11110#5).getLsbD (j - 27) := by
  have e : (Instr.subT3 ib imm3 rd imm8).bits.getLsbD j = BitVec.getLsbD (w := 5 + 1 + 2 + 1 + 1 + 1 + 1 + 4 + 1 + 3 + 4 + 8)
      (0b11110#5 ++ ib ++ 0b10#2 ++ 0b1#1 ++ 0b0#1 ++ 0b1#1 ++ 0b0#1 ++ 0b1101#4 ++ 0b0#1 ++ imm3 ++ rd ++ imm8) j := rfl
  rw [e]
  simp only [BitVec.getLsbD_append]
  interval_cases j <;> simp

/-- The bytes of an A32 word make the word (R23). -/
theorem wordOfBytes_bytesOfWord (w : Word) :
    wordOfBytes (w.extractLsb' 0 8) (w.extractLsb' 8 8) (w.extractLsb' 16 8) (w.extractLsb' 24 8) = w := by
  apply BitVec.eq_of_getLsbD_eq
  intro j hj
  have e : (wordOfBytes (w.extractLsb' 0 8) (w.extractLsb' 8 8) (w.extractLsb' 16 8) (w.extractLsb' 24 8)).getLsbD j =
      BitVec.getLsbD (w := 8 + 8 + 8 + 8)
        (w.extractLsb' 24 8 ++ w.extractLsb' 16 8 ++ w.extractLsb' 8 8 ++ w.extractLsb' 0 8) j := rfl
  rw [e]
  simp only [BitVec.getLsbD_append]
  interval_cases j <;> simp

/-- The bytes of a halfword make the halfword (R23). -/
theorem halfOfBytes_bytesOfHalf (h : Half) : halfOfBytes (h.extractLsb' 0 8) (h.extractLsb' 8 8) = h := by
  apply BitVec.eq_of_getLsbD_eq
  intro j hj
  have e : (halfOfBytes (h.extractLsb' 0 8) (h.extractLsb' 8 8)).getLsbD j =
      BitVec.getLsbD (w := 8 + 8) (h.extractLsb' 8 8 ++ h.extractLsb' 0 8) j := rfl
  rw [e]
  simp only [BitVec.getLsbD_append]
  interval_cases j <;> simp

/-- A mask and pattern pair overlaps another where some word matches both. -/
def rowsOverlap (r q : Word × Word) : Bool := (r.2 &&& q.1) == (q.2 &&& r.1)

/-- The rows a 32-bit T32 word is tried against (R32, R33), and those an A32 word is (R30). -/
def rowsT32 : List (Word × Word) :=
  [(0xFBFF8000#32, 0xF1AD0000#32), (0xFBFF8000#32, 0xF1BD0000#32), (0xFBFF8000#32, 0xF2AD0000#32)]

def rowsA32 : List (Word × Word) := [(0x0FFF0000#32, 0x024D0000#32), (0x0FFF0000#32, 0x025D0000#32)]

/-- No two rows overlap (R34). -/
theorem rows_disjoint :
    rowsT32.Pairwise (fun r q => rowsOverlap r q = false) ∧ rowsA32.Pairwise (fun r q => rowsOverlap r q = false) := by
  decide

end Sys2Proof
end

