-- ==== Sys2Proof/Laws/Memory.lean ====
section
/-! SUPPORT. The program text: every operation keeps the canonical form, a read after a write, and what placing bytes
leaves to be fetched. -/

namespace Sys2Proof.Machine

theorem Memory.mem_insert {m : Memory} {addr : Nat} {b : Byte} {p : Host.Cell} (h : p ∈ m.insert addr b) :
    p = (addr, b) ∨ p ∈ m := by
  induction m with
  | nil => simpa [Memory.insert] using h
  | cons q rest ih =>
    obtain ⟨a, x⟩ := q
    simp only [Memory.insert] at h
    split at h
    · simpa using h
    · split at h
      · simp only [List.mem_cons] at h ⊢; tauto
      · simp only [List.mem_cons] at h ⊢
        rcases h with h | h
        · tauto
        · rcases ih h with h | h <;> tauto

theorem Memory.insert_pairwise {m : Memory} (addr : Nat) (b : Byte)
    (h : m.Pairwise fun p q => p.1 < q.1) : (m.insert addr b).Pairwise fun p q => p.1 < q.1 := by
  induction m with
  | nil => simp [Memory.insert]
  | cons q rest ih =>
    obtain ⟨a, x⟩ := q
    rw [List.pairwise_cons] at h
    simp only [Memory.insert]
    split
    · rw [List.pairwise_cons]
      refine ⟨fun p hp => ?_, List.pairwise_cons.mpr h⟩
      rcases List.mem_cons.mp hp with rfl | hp
      · assumption
      · have := h.1 p hp; simp only at *; omega
    · split
      · subst_vars; exact List.pairwise_cons.mpr h
      · rw [List.pairwise_cons]
        refine ⟨fun p hp => ?_, ih h.2⟩
        rcases Memory.mem_insert hp with rfl | hp
        · simp only at *; omega
        · exact h.1 p hp

/-- A write keeps the canonical form. -/
theorem Memory.write_wf {m : Memory} (addr : Nat) (b : Byte) (h : m.wf) : (m.write addr b).wf := by
  unfold Memory.write
  split
  · refine ⟨Memory.insert_pairwise addr b h.1, fun p hp => ?_⟩
    rcases Memory.mem_insert hp with rfl | hp
    · assumption
    · exact h.2 p hp
  · exact h

/-- Placing a program keeps the canonical form. -/
theorem Memory.load_wf {m : Memory} (addr : Nat) (bs : List Byte) (h : m.wf) : (m.load addr bs).wf := by
  induction bs generalizing m addr with
  | nil => exact h
  | cons b bs ih => exact ih _ (Memory.write_wf addr b h)

theorem Memory.lookup_cell (a : Nat) (x : Byte) (rest : Memory) (addr : Nat) :
    List.lookup addr ((a, x) :: rest) = if addr = a then some x else List.lookup addr rest := by
  rw [List.lookup_cons]
  by_cases h : addr = a
  · simp [h]
  · rw [if_neg h, beq_eq_false_iff_ne.mpr h]

theorem Memory.lookup_insert (m : Memory) (addr addr' : Nat) (b : Byte) :
    List.lookup addr' (m.insert addr b) = if addr' = addr then some b else List.lookup addr' m := by
  induction m with
  | nil => rw [Memory.insert, Memory.lookup_cell]
  | cons q rest ih =>
    obtain ⟨a, x⟩ := q
    simp only [Memory.insert]
    split
    · rw [Memory.lookup_cell]
    · split
      · rename_i h
        rw [Memory.lookup_cell, Memory.lookup_cell, ← h]
        split <;> rfl
      · rw [Memory.lookup_cell, Memory.lookup_cell, ih]
        by_cases h : addr' = a
        · rw [if_pos h, if_pos h, if_neg (by omega)]
        · rw [if_neg h, if_neg h]

/-- A read after a write: the byte written at its address, the old one elsewhere. -/
theorem Memory.read_write (m : Memory) (addr addr' : Nat) (b : Byte) (h : addr < 2 ^ 32) :
    (m.write addr b).read addr' = if addr' = addr then some b else m.read addr' := by
  unfold Memory.write Memory.read
  rw [if_pos h, Memory.lookup_insert]
  by_cases h' : addr' = addr
  · rw [if_pos h', if_pos h', if_pos (h' ▸ h)]
  · rw [if_neg h', if_neg h']

/-- A write outside the address space writes nothing. -/
theorem Memory.write_outside (m : Memory) (addr : Nat) (b : Byte) (h : 2 ^ 32 ≤ addr) : m.write addr b = m := by
  rw [Memory.write, if_neg (Nat.not_lt.mpr h)]

/-- Placing bytes leaves every address before them alone. -/
theorem Memory.read_load_before (m : Memory) (addr addr' : Nat) (bs : List Byte) (h : addr' < addr) :
    (m.load addr bs).read addr' = m.read addr' := by
  induction bs generalizing m addr with
  | nil => rfl
  | cons b bs ih =>
    rw [Memory.load, ih _ _ (by omega)]
    by_cases ha : addr < 2 ^ 32
    · rw [Memory.read_write _ _ _ _ ha, if_neg (by omega)]
    · rw [Memory.write_outside _ _ _ (by omega)]

/-- What was placed is what is read from its start on. -/
theorem Memory.window_load (m : Memory) (addr : Nat) (bs : List Byte) (h : addr + bs.length ≤ 2 ^ 32) :
    (m.load addr bs).window addr bs.length = bs := by
  induction bs generalizing m addr with
  | nil => rfl
  | cons b bs ih =>
    simp only [List.length_cons] at h
    have hb : (Memory.load m addr (b :: bs)).read addr = some b := by
      rw [Memory.load, Memory.read_load_before _ _ _ _ (by omega), Memory.read_write _ _ _ _ (by omega), if_pos rfl]
    simp only [List.length_cons, Memory.window, hb]
    rw [Memory.load, ih _ _ (by omega)]

/-- A longer window begins with a shorter one that is full. -/
theorem Memory.window_prefix (m : Memory) (addr n k : Nat) (bs : List Byte) (hl : bs.length = n)
    (h : m.window addr n = bs) : m.window addr (n + k) = bs ++ m.window (addr + n) k := by
  induction n generalizing addr bs with
  | zero => simp [List.length_eq_zero_iff.mp hl]
  | succ n ih =>
    match bs, hl with
    | b :: bs', hl =>
      simp only [Memory.window] at h
      rw [show n + 1 + k = (n + k) + 1 by omega, Memory.window]
      cases hr : m.read addr with
      | none => simp [hr] at h
      | some b' =>
        simp only [hr, List.cons.injEq] at h ⊢
        rw [h.1, ih (addr + 1) bs' (by simpa using hl) h.2, show addr + 1 + n = addr + (n + 1) by omega]
        rfl

end Sys2Proof.Machine
end

