-- ==== Sys2Proof/Laws/State.lean ====
section
/-! SUPPORT. One lemma per field per update of the state, each true by `rfl`, so that no later proof unfolds a record
update. -/

namespace Sys2Proof.Machine

/-! ## `State.setPc` -/

@[simp] theorem State.setPc_regs (s : State) (v : Word) : (s.setPc v).regs = s.regs := rfl

@[simp] theorem State.setPc_spsr (s : State) (v : Word) : (s.setPc v).spsr = s.spsr := rfl

@[simp] theorem State.setPc_pc (s : State) (v : Word) : (s.setPc v).pc = v := rfl

@[simp] theorem State.setPc_pstate (s : State) (v : Word) : (s.setPc v).pstate = s.pstate := rfl

@[simp] theorem State.setPc_security (s : State) (v : Word) : (s.setPc v).security = s.security := rfl

@[simp] theorem State.setPc_exclusiveMonitor (s : State) (v : Word) : (s.setPc v).exclusiveMonitor = s.exclusiveMonitor := rfl

@[simp] theorem State.setPc_eventRegister (s : State) (v : Word) : (s.setPc v).eventRegister = s.eventRegister := rfl

@[simp] theorem State.setPc_freeCount (s : State) (v : Word) : (s.setPc v).freeCount = s.freeCount := rfl

@[simp] theorem State.setPc_mem (s : State) (v : Word) : (s.setPc v).mem = s.mem := rfl

/-! ## `State.setPState` -/

@[simp] theorem State.setPState_regs (s : State) (p : PState) : (s.setPState p).regs = s.regs := rfl

@[simp] theorem State.setPState_spsr (s : State) (p : PState) : (s.setPState p).spsr = s.spsr := rfl

@[simp] theorem State.setPState_pc (s : State) (p : PState) : (s.setPState p).pc = s.pc := rfl

@[simp] theorem State.setPState_pstate (s : State) (p : PState) : (s.setPState p).pstate = p := rfl

@[simp] theorem State.setPState_security (s : State) (p : PState) : (s.setPState p).security = s.security := rfl

@[simp] theorem State.setPState_exclusiveMonitor (s : State) (p : PState) : (s.setPState p).exclusiveMonitor = s.exclusiveMonitor := rfl

@[simp] theorem State.setPState_eventRegister (s : State) (p : PState) : (s.setPState p).eventRegister = s.eventRegister := rfl

@[simp] theorem State.setPState_freeCount (s : State) (p : PState) : (s.setPState p).freeCount = s.freeCount := rfl

@[simp] theorem State.setPState_mem (s : State) (p : PState) : (s.setPState p).mem = s.mem := rfl

/-! ## `State.writeReg` -/

@[simp] theorem State.writeReg_regs (s : State) (n : Nat) (v : Word) : (s.writeReg n v).regs = s.regs.write s.pstate.m n v := rfl

@[simp] theorem State.writeReg_spsr (s : State) (n : Nat) (v : Word) : (s.writeReg n v).spsr = s.spsr := rfl

@[simp] theorem State.writeReg_pc (s : State) (n : Nat) (v : Word) : (s.writeReg n v).pc = s.pc := rfl

@[simp] theorem State.writeReg_pstate (s : State) (n : Nat) (v : Word) : (s.writeReg n v).pstate = s.pstate := rfl

@[simp] theorem State.writeReg_security (s : State) (n : Nat) (v : Word) : (s.writeReg n v).security = s.security := rfl

@[simp] theorem State.writeReg_exclusiveMonitor (s : State) (n : Nat) (v : Word) : (s.writeReg n v).exclusiveMonitor = s.exclusiveMonitor := rfl

@[simp] theorem State.writeReg_eventRegister (s : State) (n : Nat) (v : Word) : (s.writeReg n v).eventRegister = s.eventRegister := rfl

@[simp] theorem State.writeReg_freeCount (s : State) (n : Nat) (v : Word) : (s.writeReg n v).freeCount = s.freeCount := rfl

@[simp] theorem State.writeReg_mem (s : State) (n : Nat) (v : Word) : (s.writeReg n v).mem = s.mem := rfl

/-! ## `State.useFree` -/

@[simp] theorem State.useFree_regs (s : State) : (s.useFree).regs = s.regs := rfl

@[simp] theorem State.useFree_spsr (s : State) : (s.useFree).spsr = s.spsr := rfl

@[simp] theorem State.useFree_pc (s : State) : (s.useFree).pc = s.pc := rfl

@[simp] theorem State.useFree_pstate (s : State) : (s.useFree).pstate = s.pstate := rfl

@[simp] theorem State.useFree_security (s : State) : (s.useFree).security = s.security := rfl

@[simp] theorem State.useFree_exclusiveMonitor (s : State) : (s.useFree).exclusiveMonitor = s.exclusiveMonitor := rfl

@[simp] theorem State.useFree_eventRegister (s : State) : (s.useFree).eventRegister = s.eventRegister := rfl

@[simp] theorem State.useFree_freeCount (s : State) : (s.useFree).freeCount = s.freeCount + 1 := rfl

@[simp] theorem State.useFree_mem (s : State) : (s.useFree).mem = s.mem := rfl

/-! ## `State.clearMonitorSendEvent` -/

@[simp] theorem State.clearMonitorSendEvent_regs (s : State) : (s.clearMonitorSendEvent).regs = s.regs := rfl

@[simp] theorem State.clearMonitorSendEvent_spsr (s : State) : (s.clearMonitorSendEvent).spsr = s.spsr := rfl

@[simp] theorem State.clearMonitorSendEvent_pc (s : State) : (s.clearMonitorSendEvent).pc = s.pc := rfl

@[simp] theorem State.clearMonitorSendEvent_pstate (s : State) : (s.clearMonitorSendEvent).pstate = s.pstate := rfl

@[simp] theorem State.clearMonitorSendEvent_security (s : State) : (s.clearMonitorSendEvent).security = s.security := rfl

@[simp] theorem State.clearMonitorSendEvent_exclusiveMonitor (s : State) : (s.clearMonitorSendEvent).exclusiveMonitor = false := rfl

@[simp] theorem State.clearMonitorSendEvent_eventRegister (s : State) : (s.clearMonitorSendEvent).eventRegister = true := rfl

@[simp] theorem State.clearMonitorSendEvent_freeCount (s : State) : (s.clearMonitorSendEvent).freeCount = s.freeCount := rfl

@[simp] theorem State.clearMonitorSendEvent_mem (s : State) : (s.clearMonitorSendEvent).mem = s.mem := rfl

/-! ## `PState.setNzcv` -/

@[simp] theorem PState.setNzcv_n (p : PState) (nzcv : BitVec 4) : (p.setNzcv nzcv).n = nzcv.getLsbD 3 := rfl

@[simp] theorem PState.setNzcv_z (p : PState) (nzcv : BitVec 4) : (p.setNzcv nzcv).z = nzcv.getLsbD 2 := rfl

@[simp] theorem PState.setNzcv_c (p : PState) (nzcv : BitVec 4) : (p.setNzcv nzcv).c = nzcv.getLsbD 1 := rfl

@[simp] theorem PState.setNzcv_v (p : PState) (nzcv : BitVec 4) : (p.setNzcv nzcv).v = nzcv.getLsbD 0 := rfl

@[simp] theorem PState.setNzcv_q (p : PState) (nzcv : BitVec 4) : (p.setNzcv nzcv).q = p.q := rfl

@[simp] theorem PState.setNzcv_it (p : PState) (nzcv : BitVec 4) : (p.setNzcv nzcv).it = p.it := rfl

@[simp] theorem PState.setNzcv_dit (p : PState) (nzcv : BitVec 4) : (p.setNzcv nzcv).dit = p.dit := rfl

@[simp] theorem PState.setNzcv_ssbs (p : PState) (nzcv : BitVec 4) : (p.setNzcv nzcv).ssbs = p.ssbs := rfl

@[simp] theorem PState.setNzcv_pan (p : PState) (nzcv : BitVec 4) : (p.setNzcv nzcv).pan = p.pan := rfl

@[simp] theorem PState.setNzcv_ss (p : PState) (nzcv : BitVec 4) : (p.setNzcv nzcv).ss = p.ss := rfl

@[simp] theorem PState.setNzcv_il (p : PState) (nzcv : BitVec 4) : (p.setNzcv nzcv).il = p.il := rfl

@[simp] theorem PState.setNzcv_ge (p : PState) (nzcv : BitVec 4) : (p.setNzcv nzcv).ge = p.ge := rfl

@[simp] theorem PState.setNzcv_e (p : PState) (nzcv : BitVec 4) : (p.setNzcv nzcv).e = p.e := rfl

@[simp] theorem PState.setNzcv_a (p : PState) (nzcv : BitVec 4) : (p.setNzcv nzcv).a = p.a := rfl

@[simp] theorem PState.setNzcv_i (p : PState) (nzcv : BitVec 4) : (p.setNzcv nzcv).i = p.i := rfl

@[simp] theorem PState.setNzcv_f (p : PState) (nzcv : BitVec 4) : (p.setNzcv nzcv).f = p.f := rfl

@[simp] theorem PState.setNzcv_t (p : PState) (nzcv : BitVec 4) : (p.setNzcv nzcv).t = p.t := rfl

@[simp] theorem PState.setNzcv_m (p : PState) (nzcv : BitVec 4) : (p.setNzcv nzcv).m = p.m := rfl

/-! ## `PState.advanceIt` -/

@[simp] theorem PState.advanceIt_n (p : PState) : (p.advanceIt).n = p.n := rfl

@[simp] theorem PState.advanceIt_z (p : PState) : (p.advanceIt).z = p.z := rfl

@[simp] theorem PState.advanceIt_c (p : PState) : (p.advanceIt).c = p.c := rfl

@[simp] theorem PState.advanceIt_v (p : PState) : (p.advanceIt).v = p.v := rfl

@[simp] theorem PState.advanceIt_q (p : PState) : (p.advanceIt).q = p.q := rfl

@[simp] theorem PState.advanceIt_it (p : PState) : (p.advanceIt).it = itAdvance p.it := rfl

@[simp] theorem PState.advanceIt_dit (p : PState) : (p.advanceIt).dit = p.dit := rfl

@[simp] theorem PState.advanceIt_ssbs (p : PState) : (p.advanceIt).ssbs = p.ssbs := rfl

@[simp] theorem PState.advanceIt_pan (p : PState) : (p.advanceIt).pan = p.pan := rfl

@[simp] theorem PState.advanceIt_ss (p : PState) : (p.advanceIt).ss = p.ss := rfl

@[simp] theorem PState.advanceIt_il (p : PState) : (p.advanceIt).il = p.il := rfl

@[simp] theorem PState.advanceIt_ge (p : PState) : (p.advanceIt).ge = p.ge := rfl

@[simp] theorem PState.advanceIt_e (p : PState) : (p.advanceIt).e = p.e := rfl

@[simp] theorem PState.advanceIt_a (p : PState) : (p.advanceIt).a = p.a := rfl

@[simp] theorem PState.advanceIt_i (p : PState) : (p.advanceIt).i = p.i := rfl

@[simp] theorem PState.advanceIt_f (p : PState) : (p.advanceIt).f = p.f := rfl

@[simp] theorem PState.advanceIt_t (p : PState) : (p.advanceIt).t = p.t := rfl

@[simp] theorem PState.advanceIt_m (p : PState) : (p.advanceIt).m = p.m := rfl

/-! ## `PState.restoreAlways` -/

@[simp] theorem PState.restoreAlways_n (p : PState) (spsr : Word) : (p.restoreAlways spsr).n = spsr.getLsbD 31 := rfl

@[simp] theorem PState.restoreAlways_z (p : PState) (spsr : Word) : (p.restoreAlways spsr).z = spsr.getLsbD 30 := rfl

@[simp] theorem PState.restoreAlways_c (p : PState) (spsr : Word) : (p.restoreAlways spsr).c = spsr.getLsbD 29 := rfl

@[simp] theorem PState.restoreAlways_v (p : PState) (spsr : Word) : (p.restoreAlways spsr).v = spsr.getLsbD 28 := rfl

@[simp] theorem PState.restoreAlways_q (p : PState) (spsr : Word) : (p.restoreAlways spsr).q = spsr.getLsbD 27 := rfl

@[simp] theorem PState.restoreAlways_it (p : PState) (spsr : Word) : (p.restoreAlways spsr).it = spsr.extractLsb' 10 6 ++ spsr.extractLsb' 25 2 := rfl

@[simp] theorem PState.restoreAlways_dit (p : PState) (spsr : Word) : (p.restoreAlways spsr).dit = spsr.getLsbD 24 := rfl

@[simp] theorem PState.restoreAlways_ssbs (p : PState) (spsr : Word) : (p.restoreAlways spsr).ssbs = spsr.getLsbD 23 := rfl

@[simp] theorem PState.restoreAlways_pan (p : PState) (spsr : Word) : (p.restoreAlways spsr).pan = spsr.getLsbD 22 := rfl

@[simp] theorem PState.restoreAlways_ss (p : PState) (spsr : Word) : (p.restoreAlways spsr).ss = spsr.getLsbD 21 := rfl

@[simp] theorem PState.restoreAlways_il (p : PState) (spsr : Word) : (p.restoreAlways spsr).il = p.il := rfl

@[simp] theorem PState.restoreAlways_ge (p : PState) (spsr : Word) : (p.restoreAlways spsr).ge = spsr.extractLsb' 16 4 := rfl

@[simp] theorem PState.restoreAlways_e (p : PState) (spsr : Word) : (p.restoreAlways spsr).e = spsr.getLsbD 9 := rfl

@[simp] theorem PState.restoreAlways_a (p : PState) (spsr : Word) : (p.restoreAlways spsr).a = spsr.getLsbD 8 := rfl

@[simp] theorem PState.restoreAlways_i (p : PState) (spsr : Word) : (p.restoreAlways spsr).i = spsr.getLsbD 7 := rfl

@[simp] theorem PState.restoreAlways_f (p : PState) (spsr : Word) : (p.restoreAlways spsr).f = spsr.getLsbD 6 := rfl

@[simp] theorem PState.restoreAlways_t (p : PState) (spsr : Word) : (p.restoreAlways spsr).t = p.t := rfl

@[simp] theorem PState.restoreAlways_m (p : PState) (spsr : Word) : (p.restoreAlways spsr).m = p.m := rfl

end Sys2Proof.Machine
end

