-- ==== Sys2Proof/Laws/Regs.lean ====
section
/-! SUPPORT. The register banks: a read after a write, through any two modes (10_state.md rule R13). -/

namespace Sys2Proof.Machine

@[simp] theorem sameCopy_self (n : Nat) (m : Mode) : sameCopy n m m = true := by
  unfold sameCopy
  split_ifs <;> simp

theorem SpBanks.get_set (b : SpBanks) (v : Word) (m m' : Mode) :
    (b.set v m).get m' = if sameCopy 13 m m' then v else b.get m' := by
  cases m <;> cases m' <;> rfl

theorem LrBanks.get_set (b : LrBanks) (v : Word) (m m' : Mode) :
    (b.set v m).get m' = if sameCopy 14 m m' then v else b.get m' := by
  cases m <;> cases m' <;> rfl

theorem Regs.read_low (r : Regs) (m : Mode) (n : Nat) (h : n < 8) : r.read m n = r.low[n] := by
  rw [Regs.read, dif_pos h]

theorem Regs.read_mid (r : Regs) (m : Mode) (n : Nat) (h : 8 ≤ n) (h' : n - 8 < 5) :
    r.read m n = if m = .fiq then r.midFiq[n - 8] else r.mid[n - 8] := by
  rw [Regs.read, dif_neg (Nat.not_lt.mpr h), dif_pos h']

theorem Regs.read_sp (r : Regs) (m : Mode) : r.read m 13 = r.sp.get m := rfl

theorem Regs.read_lr (r : Regs) (m : Mode) : r.read m 14 = r.lr.get m := rfl

/-- The four kinds of register number (R13). -/
theorem regKind (n : Nat) (h : n < 15) : n < 8 ∨ (8 ≤ n ∧ n - 8 < 5) ∨ n = 13 ∨ n = 14 := by omega

/-- A write of register `n` in mode `m`, read back as register `k` in mode `m'`. -/
theorem Regs.read_write (r : Regs) (m m' : Mode) (n k : Nat) (v : Word) (hn : n < 15) (hk : k < 15) :
    (r.write m n v).read m' k = if n = k ∧ sameCopy n m m' then v else r.read m' k := by
  rcases regKind n hn with hn | ⟨hn, hn'⟩ | rfl | rfl
  · have hw : r.write m n v = { r with low := r.low.setIfInBounds n v } := by rw [Regs.write, if_pos hn]
    have hc : sameCopy n m m' = true := by simp [sameCopy, hn]
    rw [hw]
    rcases regKind k hk with hk | ⟨hk, hk'⟩ | rfl | rfl
    · simp [Regs.read_low, hk, hc, Vector.getElem_setIfInBounds]
    · rw [Regs.read_mid _ _ _ hk hk', Regs.read_mid _ _ _ hk hk', if_neg (c := n = k ∧ _) (by omega)]
    · rw [Regs.read_sp, Regs.read_sp, if_neg (by omega)]
    · rw [Regs.read_lr, Regs.read_lr, if_neg (by omega)]
  · have hc : sameCopy n m m' = ((m == .fiq) == (m' == .fiq)) := by
      rw [sameCopy, if_neg (by omega), if_pos (by omega)]
    rw [Regs.write, if_neg (by omega), if_pos (by omega)]
    rcases regKind k hk with hk | ⟨hk, hk'⟩ | rfl | rfl
    · split <;> rw [Regs.read_low _ _ _ hk, Regs.read_low _ _ _ hk, if_neg (by omega)]
    · have he : n - 8 = k - 8 ↔ n = k := by omega
      rw [hc]
      by_cases hm : m = .fiq <;> by_cases hm' : m' = .fiq <;>
        simp [Regs.read_mid _ _ _ hk hk', hm, hm', Vector.getElem_setIfInBounds, he]
    · split <;> rw [Regs.read_sp, Regs.read_sp, if_neg (by omega)]
    · split <;> rw [Regs.read_lr, Regs.read_lr, if_neg (by omega)]
  · have hw : r.write m 13 v = { r with sp := r.sp.set v m } := rfl
    rw [hw]
    rcases regKind k hk with hk | ⟨hk, hk'⟩ | rfl | rfl
    · rw [Regs.read_low _ _ _ hk, Regs.read_low _ _ _ hk, if_neg (by omega)]
    · rw [Regs.read_mid _ _ _ hk hk', Regs.read_mid _ _ _ hk hk', if_neg (c := 13 = k ∧ _) (by omega)]
    · simp [Regs.read_sp, SpBanks.get_set]
    · rw [Regs.read_lr, Regs.read_lr, if_neg (by omega)]
  · have hw : r.write m 14 v = { r with lr := r.lr.set v m } := rfl
    rw [hw]
    rcases regKind k hk with hk | ⟨hk, hk'⟩ | rfl | rfl
    · rw [Regs.read_low _ _ _ hk, Regs.read_low _ _ _ hk, if_neg (by omega)]
    · rw [Regs.read_mid _ _ _ hk hk', Regs.read_mid _ _ _ hk hk', if_neg (c := 14 = k ∧ _) (by omega)]
    · rw [Regs.read_sp, Regs.read_sp, if_neg (by omega)]
    · simp [Regs.read_lr, LrBanks.get_set]

/-- `x[k]` after `x[n] <- v` in one mode. -/
theorem State.readReg_writeReg (s : State) (n k : Nat) (v : Word) (hn : n < 15) (hk : k < 15) :
    (s.writeReg n v).readReg k = if n = k then v else s.readReg k := by
  have : k ≠ 15 := by omega
  simp [State.readReg, this, Regs.read_write _ _ _ _ _ _ hn hk]

end Sys2Proof.Machine
end

