-- ==== Sys2Proof/Laws/Ops.lean ====
section
/-! SUPPORT. For each shared operation, once, everything it can do; and what a step can do. -/

namespace Sys2Proof.Machine

/-! ## The arithmetic (R63, R72) -/

/-- The subtraction as the instruction performs it. -/
theorem addWithCarry_sub (x imm : Word) : (addWithCarry x (~~~imm) true).1 = x - imm := by
  apply BitVec.eq_of_toNat_eq
  have := imm.isLt
  simp only [addWithCarry, BitVec.toNat_ofNat, BitVec.toNat_not, BitVec.toNat_sub, Bool.toNat_true]
  omega

/-! ## The end of an instruction (R14, R59) -/

theorem advance_next_iff {len : Nat} {s t : State} :
    advance len s = .next t ↔ s.pc.toNat + len < 2 ^ 32 ∧ t = s.setPc (s.pc + BitVec.ofNat 32 len) := by
  unfold advance
  split
  · simp only [reduceCtorEq, false_iff]; omega
  · simp only [Host.Outcome.next.injEq]
    exact ⟨fun h => ⟨by omega, h.symm⟩, fun h => h.2.symm⟩

theorem advance_of_lt {len : Nat} {s : State} (h : s.pc.toNat + len < 2 ^ 32) :
    advance len s = .next (s.setPc (s.pc + BitVec.ofNat 32 len)) :=
  advance_next_iff.mpr ⟨h, rfl⟩

theorem advance_of_wrap {len : Nat} {s : State} (h : 2 ^ 32 ≤ s.pc.toNat + len) :
    advance len s = .refused .pcWrap := by rw [advance, if_pos h]

/-! ## Execute (R50) -/

/-- What Execute can do where it ends in a next state. -/
theorem subSp_cases {p : Config.Params} {o : Operands} {adv : State → Result} {s t : State}
    (h : subSp p o adv s = .next t) :
    (o.d = 15 ∧ o.setflags = true ∧ aluExceptionReturn p (s.readReg 13 - o.imm32) s = .next t)
      ∨ (o.d = 15 ∧ o.setflags = false ∧ aluWritePC p (s.readReg 13 - o.imm32) s = .next t)
      ∨ (o.d ≠ 15 ∧ o.setflags = false ∧ adv (s.writeReg o.d (s.readReg 13 - o.imm32)) = .next t)
      ∨ (o.d ≠ 15 ∧ o.setflags = true
          ∧ adv ((s.writeReg o.d (s.readReg 13 - o.imm32)).setPState
              (s.pstate.setNzcv (addWithCarry (s.readReg 13) (~~~o.imm32) true).2)) = .next t) := by
  simp only [subSp, addWithCarry_sub] at h
  by_cases hd : o.d = 15 <;> cases hf : o.setflags <;> simp_all

/-- Execute of a form that does not write the pc. -/
theorem subSp_reg {p : Config.Params} {o : Operands} (adv : State → Result) (s : State) (hd : o.d ≠ 15) :
    subSp p o adv s =
      adv (if o.setflags then
          (s.writeReg o.d (s.readReg 13 - o.imm32)).setPState
            (s.pstate.setNzcv (addWithCarry (s.readReg 13) (~~~o.imm32) true).2)
        else s.writeReg o.d (s.readReg 13 - o.imm32)) := by
  simp only [subSp, addWithCarry_sub, if_neg hd, State.writeReg_pstate]

/-- Execute of a form that writes the pc. -/
theorem subSp_pc (p : Config.Params) (o : Operands) (adv : State → Result) (s : State) (hd : o.d = 15) :
    subSp p o adv s =
      if o.setflags then aluExceptionReturn p (s.readReg 13 - o.imm32) s
      else aluWritePC p (s.readReg 13 - o.imm32) s := by
  simp only [subSp, addWithCarry_sub, if_pos hd]

/-- The condition and then Execute, where they end in a next state. -/
theorem conditionally_cases {p : Config.Params} {cond : Except Unpredictable (BitVec 4)} {o : Operands}
    {adv : State → Result} {s t : State} (h : conditionally p cond o adv s = .next t) :
    ∃ c, cond = .ok c
      ∧ ((conditionHolds c s.pstate = true ∧ subSp p o adv s = .next t)
        ∨ (conditionHolds c s.pstate = false ∧ adv s = .next t)) := by
  unfold conditionally at h
  split at h
  · exact absurd h (by simp)
  · rename_i c
    refine ⟨c, rfl, ?_⟩
    cases hc : conditionHolds c s.pstate <;> simp_all

theorem executeA32_eq {p : Config.Params} {cond : BitVec 4} {o : Operands} {s : State} (h : s.pstate.it = 0) :
    executeA32 p cond o s = if conditionHolds cond s.pstate then subSp p o (advance 4) s else advance 4 s := by
  simp only [executeA32, conditionally, currentCondA32, if_pos h]

theorem executeT32_eq {p : Config.Params} {len : Nat} {o : Operands} {s : State} {c : BitVec 4}
    (h : currentCondT32 s.pstate = .ok c) :
    executeT32 p len o s = if conditionHolds c s.pstate then subSp p o (advanceT32 len) s else advanceT32 len s := by
  simp only [executeT32, conditionally, h]

/-- The checks of the encoding, where what follows ends in a next state. -/
theorem guarded_cases {i : Instr} {body : State → Result} {s t : State} (h : guarded i body s = .next t) :
    encodingSpecific i = none ∧ body s = .next t := by
  unfold guarded at h
  split at h
  · rename_i r _; cases r <;> exact absurd h (by simp [rejected])
  · exact ⟨‹_›, h⟩

/-- A well-formed term passes the checks of its encoding, and no other does. -/
theorem encodingSpecificWith_none_iff (zb : Bool) (i : Instr) :
    encodingSpecificWith zb i = none ↔ i.wfWith zb = true := by
  cases i <;> simp [encodingSpecificWith, Instr.wfWith]
  all_goals
    constructor
    · intro h
      split_ifs at h with h1 h2
      exact ⟨h1, by cases zb <;> simp_all⟩
    · rintro ⟨h1, h2⟩
      rw [if_neg h1, if_neg (by cases zb <;> simp_all)]

/-- The machine's own setting of the zero-byte switch. -/
@[simp] theorem admitT32ZeroByte_eq : Config.admitT32ZeroByte = true := rfl

theorem guarded_of_wf {i : Instr} (body : State → Result) (s : State) (h : i.wf = true) :
    guarded i body s = body s := by
  rw [guarded, encodingSpecific, (encodingSpecificWith_none_iff _ i).mpr h]

/-! ## The exception return (R58, R69) -/

/-- What `ALUExceptionReturn` can do where it ends in a next state. -/
theorem aluExceptionReturn_cases {p : Config.Params} {address : Word} {s t : State}
    (h : aluExceptionReturn p address s = .next t) :
    s.pstate.m ≠ .hyp
      ∧ ((∃ w, s.spsr.get s.pstate.m = some w ∧ p.exceptionReturn = true ∧ t = exceptionReturn address w s)
        ∨ (s.spsr.get s.pstate.m = none ∧ p.permitUserSystemReturn = true
            ∧ Config.userSystemReturn s.freeCount = .nop ∧ advance 4 s.useFree = .next t)) := by
  unfold aluExceptionReturn takeUndefined at h
  split at h
  · exact absurd h (by simp)
  · refine ⟨‹_›, ?_⟩
    split at h
    · left
      split at h
      · exact ⟨_, ‹_›, ‹_›, by simpa using h.symm⟩
      · exact absurd h (by simp)
    · right
      split at h
      · split at h
        · exact absurd h (by simp)
        · exact ⟨‹_›, ‹_›, ‹_›, h⟩
      · exact absurd h (by simp)

/-- Only User and System modes have no SPSR (R13, R18). -/
theorem SpsrBanks.get_none_iff (b : SpsrBanks) (m : Mode) : b.get m = none ↔ m = .user ∨ m = .system := by
  cases m <;> simp [SpsrBanks.get]

/-- What `BXWritePC` can do where it ends in a next state (R68). -/
theorem bxWritePC_cases {p : Config.Params} {address : Word} {s t : State} (h : bxWritePC p address s = .next t) :
    (address.getLsbD 0 = true
        ∧ t = (s.setPState { s.pstate with t := true }).setPc (address.extractLsb' 1 31 ++ 0b0#1))
      ∨ (address.getLsbD 0 = false ∧ address.getLsbD 1 = true ∧ p.permitMisalignedTarget = true
        ∧ t = ((s.setPState { s.pstate with t := false }).setPc
            (address.extractLsb' 2 30 ++ Config.freeTargetBit s.freeCount ++ 0b0#1)).useFree)
      ∨ (address.getLsbD 0 = false ∧ address.getLsbD 1 = false
        ∧ t = (s.setPState { s.pstate with t := false }).setPc address) := by
  unfold bxWritePC at h
  cases h0 : address.getLsbD 0 <;> cases h1 : address.getLsbD 1 <;> cases hp : p.permitMisalignedTarget <;>
    simp_all

/-- What a branch leaves alone (R57, R68). -/
theorem aluWritePC_frame {p : Config.Params} {address : Word} {s t : State} (h : aluWritePC p address s = .next t) :
    t.regs = s.regs ∧ t.spsr = s.spsr ∧ t.security = s.security ∧ t.exclusiveMonitor = s.exclusiveMonitor
      ∧ t.eventRegister = s.eventRegister ∧ t.mem = s.mem ∧ t.pstate = { s.pstate with t := t.pstate.t } := by
  unfold aluWritePC branchWritePC at h
  split at h
  · simp only [Host.Outcome.next.injEq] at h
    subst h
    exact ⟨rfl, rfl, rfl, rfl, rfl, rfl, rfl⟩
  · obtain ⟨_, rfl⟩ | ⟨_, _, _, rfl⟩ | ⟨_, _, rfl⟩ := bxWritePC_cases h <;> exact ⟨rfl, rfl, rfl, rfl, rfl, rfl, rfl⟩

/-- What an exception return leaves alone (R69). -/
theorem exceptionReturn_frame (address w : Word) (s : State) :
    (exceptionReturn address w s).regs = s.regs ∧ (exceptionReturn address w s).spsr = s.spsr
      ∧ (exceptionReturn address w s).security = s.security ∧ (exceptionReturn address w s).mem = s.mem := by
  unfold exceptionReturn setPSTATEFromPSR
  dsimp only
  split_ifs <;> exact ⟨rfl, rfl, rfl, rfl⟩

/-- PSTATE after `SetPSTATEFromPSR` of an illegal return (R69). -/
theorem setPSTATEFromPSR_illegal {w : Word} {s : State} (h : illegalReturn w s = true) :
    setPSTATEFromPSR w s = s.setPState { s.pstate.restoreAlways w with il := true } := by
  unfold setPSTATEFromPSR
  rw [if_pos h]

/-- PSTATE after `SetPSTATEFromPSR` of a legal return (R69), whose M field names an implemented mode. -/
theorem setPSTATEFromPSR_legal {w : Word} {s : State} (h : illegalReturn w s = false) :
    ∃ target, Mode.ofBits (w.extractLsb' 0 5) = some target ∧ target.implemented = true
      ∧ setPSTATEFromPSR w s =
        s.setPState { s.pstate.restoreAlways w with il := w.getLsbD 20, t := w.getLsbD 5, m := target } := by
  have h' := h
  unfold illegalReturn at h
  split at h
  · exact absurd h (by simp)
  · rename_i target ht
    simp only [Bool.or_eq_false_iff, Bool.not_eq_false'] at h
    refine ⟨target, ht, h.1.1.1, ?_⟩
    unfold setPSTATEFromPSR
    rw [if_neg (by simp [h']), ht]
    rfl

/-! ## A step -/

/-- The operands of an instruction (R35). -/
def operandsOf : Instr → Operands
  | .subA1 _ rd imm12 => operandsA1 false rd imm12
  | .subsA1 _ rd imm12 => operandsA1 true rd imm12
  | .subT1 imm7 => operandsT1 imm7
  | .subT2 ib imm3 rd imm8 => operandsT2 false ib imm3 rd imm8
  | .subsT2 ib imm3 rd imm8 => operandsT2 true ib imm3 rd imm8
  | .subT3 ib imm3 rd imm8 => operandsT3 ib imm3 rd imm8

/-- `CurrentCond` (R66): the `cond` field of an A1 instruction, the condition IT gives a T32 one. -/
def currentCond (i : Instr) (p : PState) : Except Unpredictable (BitVec 4) :=
  match i with
  | .subA1 cond _ _ | .subsA1 cond _ _ => currentCondA32 cond p
  | .subT1 _ | .subT2 .. | .subsT2 .. | .subT3 .. => currentCondT32 p

/-- What ends an instruction that does not write the pc (R59). -/
def advanceOf (i : Instr) : State → Result := if i.isT32 then advanceT32 i.len else advance i.len

/-- A condition that holds for an A1 instruction is its own, and IT is 0 (R66, R70). -/
theorem currentCondA32_ok {cond c : BitVec 4} {p : PState} (h : currentCondA32 cond p = .ok c) :
    p.it = 0 ∧ c = cond := by
  unfold currentCondA32 at h
  split at h
  · cases h; exact ⟨‹_›, rfl⟩
  · exact absurd h (by simp)

theorem currentCond_A32 {i : Instr} {c : BitVec 4} {p : PState} (ht : i.isT32 = false)
    (h : currentCond i p = .ok c) : p.it = 0 := by
  cases i with
  | subA1 | subsA1 => exact (currentCondA32_ok h).1
  | subT1 | subT2 | subsT2 | subT3 => simp [Instr.isT32] at ht

/-- A well-formed instruction runs Execute over its operands, with its condition. -/
theorem exec_eq {i : Instr} (s : State) (hw : i.wf = true) :
    exec i s = conditionally Config.params (currentCond i s.pstate) (operandsOf i) (advanceOf i) s := by
  cases i with
  | subA1 | subsA1 | subT1 | subT2 | subsT2 | subT3 => exact guarded_of_wf _ s hw

/-- The same, where the condition is one. -/
theorem exec_of_cond {i : Instr} {s : State} {c : BitVec 4} (hw : i.wf = true) (hc : currentCond i s.pstate = .ok c) :
    exec i s =
      if conditionHolds c s.pstate then subSp Config.params (operandsOf i) (advanceOf i) s else advanceOf i s := by
  rw [exec_eq s hw, hc]
  rfl

/-- An instruction that ends in a next state is well formed. -/
theorem exec_wf {i : Instr} {s t : State} (h : exec i s = .next t) : i.wf = true := by
  apply (encodingSpecificWith_none_iff _ _).mp
  cases i with
  | subA1 cond rd imm12 => exact (guarded_cases (i := .subA1 cond rd imm12) h).1
  | subsA1 cond rd imm12 => exact (guarded_cases (i := .subsA1 cond rd imm12) h).1
  | subT1 imm7 => exact (guarded_cases (i := .subT1 imm7) (body := executeT32 Config.params 2 (operandsT1 imm7)) h).1
  | subT2 ib imm3 rd imm8 => exact (guarded_cases (i := .subT2 ib imm3 rd imm8) h).1
  | subsT2 ib imm3 rd imm8 => exact (guarded_cases (i := .subsT2 ib imm3 rd imm8) h).1
  | subT3 ib imm3 rd imm8 => exact (guarded_cases (i := .subT3 ib imm3 rd imm8) h).1

theorem toNat_ne_fifteen {rd : BitVec 4} (h : rd ≠ 0xF#4) : rd.toNat ≠ 15 := fun e =>
  h (BitVec.eq_of_toNat_eq e)

/-- A register destination is the operand `d`, and is no PC (R12). -/
theorem operandsOf_d {i : Instr} {d : Nat} (h : destination i = some d) : (operandsOf i).d = d ∧ d < 15 := by
  have key : ∀ {rd : BitVec 4}, (if rd = 0xF#4 then none else some rd.toNat) = some d → rd.toNat = d ∧ d < 15 := by
    intro rd h
    split at h
    · exact absurd h (by simp)
    · have := toNat_ne_fifteen ‹_›
      have := rd.isLt
      simp only [Option.some.injEq] at h
      omega
  cases i with
  | subT1 => simp only [destination, Option.some.injEq] at h; subst h; exact ⟨rfl, by omega⟩
  | subA1 | subsA1 | subT2 | subsT2 | subT3 => exact key h

/-- Only the A1 forms with `Rd` 1111 are well formed and have no register destination (R12, R15). -/
theorem destination_none {i : Instr} (hw : i.wf = true) (h : destination i = none) :
    (∃ cond imm12, i = .subA1 cond 0xF imm12) ∨ ∃ cond imm12, i = .subsA1 cond 0xF imm12 := by
  cases i <;> simp_all [destination, Instr.wf, Instr.wfWith]

/-- PSTATE as an instruction that does not write the pc leaves it: IT advanced in the T32 classes (R59 (c)). -/
def endPState (i : Instr) (p : PState) : PState := if i.isT32 then p.advanceIt else p

theorem advanceOf_next_iff {i : Instr} {s t : State} :
    advanceOf i s = .next t ↔ s.pc.toNat + i.len < 2 ^ 32
      ∧ t = (s.setPState (endPState i s.pstate)).setPc (s.pc + BitVec.ofNat 32 i.len) := by
  unfold advanceOf endPState
  split
  · exact advance_next_iff
  · exact advance_next_iff

/-- An instruction that advances past the top of the address space is refused (R14). -/
theorem advanceOf_of_wrap {i : Instr} {s : State} (h : 2 ^ 32 ≤ s.pc.toNat + i.len) :
    advanceOf i s = .refused .pcWrap := by
  unfold advanceOf
  split
  · exact advance_of_wrap h
  · exact advance_of_wrap h

/-- R50: the result of the subtraction. -/
def subResult (i : Instr) (s : State) : Word := s.readReg 13 - (operandsOf i).imm32

/-- Everything an instruction can do where it ends in a next state: it is skipped, it writes its register (and, for SUBS,
the flags), it branches, or it returns from an exception. -/
theorem exec_inv {i : Instr} {s t : State} (h : exec i s = .next t) :
    i.wf = true ∧ ∃ c, currentCond i s.pstate = .ok c
      ∧ ((conditionHolds c s.pstate = false ∧ s.pc.toNat + i.len < 2 ^ 32
            ∧ t = (s.setPState (endPState i s.pstate)).setPc (s.pc + BitVec.ofNat 32 i.len))
        ∨ (conditionHolds c s.pstate = true ∧ ∃ d, destination i = some d ∧ s.pc.toNat + i.len < 2 ^ 32
            ∧ t = ((s.writeReg d (subResult i s)).setPState
                (endPState i (if (operandsOf i).setflags then
                  s.pstate.setNzcv (addWithCarry (s.readReg 13) (~~~(operandsOf i).imm32) true).2 else s.pstate))).setPc
              (s.pc + BitVec.ofNat 32 i.len))
        ∨ (conditionHolds c s.pstate = true ∧ (∃ cond imm12, i = .subA1 cond 0xF imm12)
            ∧ aluWritePC Config.params (subResult i s) s = .next t)
        ∨ (conditionHolds c s.pstate = true ∧ (∃ cond imm12, i = .subsA1 cond 0xF imm12)
            ∧ s.pstate.m ≠ .hyp
            ∧ ∃ w, s.spsr.get s.pstate.m = some w ∧ t = exceptionReturn (subResult i s) w s)) := by
  have hw := exec_wf h
  rw [exec_eq s hw] at h
  obtain ⟨c, hc, ⟨hp, h⟩ | ⟨hp, h⟩⟩ := conditionally_cases h
  · refine ⟨hw, c, hc, .inr ?_⟩
    cases hd : destination i with
    | some d =>
      left
      obtain ⟨ed, hlt⟩ := operandsOf_d hd
      rw [subSp_reg _ _ (by omega), advanceOf_next_iff] at h
      refine ⟨hp, d, rfl, ?_, ?_⟩
      · have := h.1; split at this <;> exact this
      · rw [h.2, ← ed]; simp only [subResult]; split <;> rfl
    | none =>
      right
      rcases destination_none hw hd with ⟨cond, im, rfl⟩ | ⟨cond, im, rfl⟩
      · exact .inl ⟨hp, ⟨_, _, rfl⟩, by rwa [subSp_pc _ _ _ _ rfl] at h⟩
      · rw [subSp_pc _ _ _ _ rfl] at h
        obtain ⟨hm, ⟨w, hw', _, ht⟩ | ⟨_, hf, _⟩⟩ := aluExceptionReturn_cases h
        · exact .inr ⟨hp, ⟨_, _, rfl⟩, hm, w, hw', ht⟩
        · exact absurd hf (by decide)
  · exact ⟨hw, c, hc, .inl ⟨hp, advanceOf_next_iff.mp h⟩⟩

/-- The alignment of the pc, as a number (R24). -/
theorem State.pcAligned_iff (s : State) :
    s.pcAligned = true ↔ if s.pstate.t then s.pc.toNat % 2 = 0 else s.pc.toNat % 4 = 0 := by
  unfold State.pcAligned
  split <;> rw [beq_iff_eq, ← BitVec.toNat_inj] <;> simp [BitVec.extractLsb'_toNat]

/-- What a fetch that succeeds found (R22, R24). -/
theorem fetch_cases {s : State} {i : Instr} (h : fetch s = .next i) :
    s.pstate.il = false ∧ s.pcAligned = true
      ∧ ∃ rest, decodeBytes s.pstate.t (s.mem.window s.pc.toNat 4) = .ok (i, rest) := by
  unfold fetch at h
  split at h
  · exact absurd h (by simp)
  · rename_i hil
    split at h
    · exact absurd h (by simp)
    · rename_i hal
      refine ⟨by simpa using hil, by simpa using hal, ?_⟩
      split at h
      · simp only [Host.Outcome.next.injEq] at h
        subst h
        exact ⟨_, ‹_›⟩
      · rename_i r _; cases r <;> exact absurd h (by simp [rejected])

/-- A step that ends in a next state fetched an instruction and ran it. -/
theorem step_cases {s t : State} (h : step s = .next t) : ∃ i, fetch s = .next i ∧ exec i s = .next t := by
  unfold step at h
  split at h
  · exact ⟨_, ‹_›, h⟩
  · exact absurd h (by simp)
  · exact absurd h (by simp)

end Sys2Proof.Machine
end

