-- ==== Sys2Proof/Laws/PerInstr.lean ====
section
/-! SUPPORT. Per instruction: the encoded word has the fixed bits of its row of spec/opcode_table.json. -/

namespace Sys2Proof.Laws

/-- A row's mask and match, as the opcode table numbers them (R30 to R33); a T32 halfword is zero-extended. -/
def tableRow : Instr → Word × Word
  | .subA1 .. => (0x0FFF0000#32, 0x024D0000#32)
  | .subsA1 .. => (0x0FFF0000#32, 0x025D0000#32)
  | .subT1 .. => (0xFFFFFF80#32, 0x0000B080#32)
  | .subT2 .. => (0xFBFF8000#32, 0xF1AD0000#32)
  | .subsT2 .. => (0xFBFF8000#32, 0xF1BD0000#32)
  | .subT3 .. => (0xFBFF8000#32, 0xF2AD0000#32)

def FixedBits.Statement (i : Instr) : Prop := i.bits &&& (tableRow i).1 = (tableRow i).2

theorem FixedBits.subA1 (cond rd : BitVec 4) (imm12 : BitVec 12) : FixedBits.Statement (.subA1 cond rd imm12) := by
  apply BitVec.eq_of_getLsbD_eq
  intro j hj
  rw [BitVec.getLsbD_and, bits_subA1 _ _ _ j hj]
  interval_cases j <;> simp [tableRow]

theorem FixedBits.subsA1 (cond rd : BitVec 4) (imm12 : BitVec 12) : FixedBits.Statement (.subsA1 cond rd imm12) := by
  apply BitVec.eq_of_getLsbD_eq
  intro j hj
  rw [BitVec.getLsbD_and, bits_subsA1 _ _ _ j hj]
  interval_cases j <;> simp [tableRow]

theorem FixedBits.subT1 (imm7 : BitVec 7) : FixedBits.Statement (.subT1 imm7) := by
  apply BitVec.eq_of_getLsbD_eq
  intro j hj
  rw [BitVec.getLsbD_and, bits_subT1 _ j hj]
  interval_cases j <;> simp [tableRow]

theorem FixedBits.subT2 (ib : BitVec 1) (imm3 : BitVec 3) (rd : BitVec 4) (imm8 : BitVec 8) :
    FixedBits.Statement (.subT2 ib imm3 rd imm8) := by
  apply BitVec.eq_of_getLsbD_eq
  intro j hj
  rw [BitVec.getLsbD_and, bits_subT2 _ _ _ _ j hj]
  interval_cases j <;> simp [tableRow]

theorem FixedBits.subsT2 (ib : BitVec 1) (imm3 : BitVec 3) (rd : BitVec 4) (imm8 : BitVec 8) :
    FixedBits.Statement (.subsT2 ib imm3 rd imm8) := by
  apply BitVec.eq_of_getLsbD_eq
  intro j hj
  rw [BitVec.getLsbD_and, bits_subsT2 _ _ _ _ j hj]
  interval_cases j <;> simp [tableRow]

theorem FixedBits.subT3 (ib : BitVec 1) (imm3 : BitVec 3) (rd : BitVec 4) (imm8 : BitVec 8) :
    FixedBits.Statement (.subT3 ib imm3 rd imm8) := by
  apply BitVec.eq_of_getLsbD_eq
  intro j hj
  rw [BitVec.getLsbD_and, bits_subT3 _ _ _ _ j hj]
  interval_cases j <;> simp [tableRow]

end Sys2Proof.Laws
end

