-- ==== Sys2Proof/Tests/Slice0.lean ====
section
/-! SUPPORT. Tests with expected values from spec/95_test_vectors.md, and a witness for every obligation that has
hypotheses. -/

namespace Sys2Proof.Tests

open Sys2Proof.Machine

/-! ## Helpers -/

/-- A launch state of 95_test_vectors.md section 5: Supervisor mode, IT = 0, flags 0000. -/
def start (t : Bool) (pc sp : Word) : State :=
  { State.reset with
    pc := pc
    pstate := { PState.reset with t := t }
    regs := State.reset.regs.write .supervisor 13 sp }

/-- The same in another mode, whose SP it sets. -/
def startIn (m : Mode) (pc sp : Word) : State :=
  { State.reset with
    pc := pc
    pstate := { PState.reset with m := m }
    regs := State.reset.regs.write m 13 sp }

def withFlags (f : BitVec 4) (s : State) : State := s.setPState (s.pstate.setNzcv f)

def withIt (it : BitVec 8) (s : State) : State := s.setPState { s.pstate with it := it }

def withSpsrSvc (w : Word) (s : State) : State := { s with spsr := { s.spsr with svc := w } }

def ends (r : Result) (p : State → Bool) : Bool :=
  match r with
  | .next t => p t
  | .fault _ | .refused _ => false

def faults (r : Result) (f : Fault) : Bool :=
  match r with
  | .fault g => g == f
  | .next _ | .refused _ => false

def refuses (r : Result) (f : Refusal) : Bool :=
  match r with
  | .refused g => g == f
  | .next _ | .fault _ => false

def completes (r : Result) : Bool := ends r fun _ => true

theorem next_of_completes {r : Result} (h : completes r = true) : ∃ t, r = .next t := by
  cases r with
  | next t => exact ⟨t, rfl⟩
  | fault f => exact absurd h (by simp [completes, ends])
  | refused f => exact absurd h (by simp [completes, ends])

/-- `n z c v` as four bits. -/
def flags (s : State) : List Bool := [s.pstate.n, s.pstate.z, s.pstate.c, s.pstate.v]

/-! ## WellFormed: an ill-formed term for each check (30_encoding.md R40) -/

theorem test_illFormed_subA1_cond : (Instr.subA1 0xF 13 0x010).wf = false := by decide
theorem test_illFormed_subsA1_cond : (Instr.subsA1 0xF 13 0x010).wf = false := by decide
theorem test_illFormed_subT2_rd : (Instr.subT2 0 0 0xF 0x10).wf = false := by decide
theorem test_illFormed_subsT2_rd : (Instr.subsT2 0 0 0xF 0x10).wf = false := by decide
theorem test_illFormed_subT3_rd : (Instr.subT3 0 0 0xF 0x04).wf = false := by decide
theorem test_illFormed_zeroByte :
    (Instr.subT2 0 2 3 0).wfWith false = false ∧ (Instr.subsT2 0 1 3 0).wfWith false = false
      ∧ (Instr.subT2 0 2 3 0).wfWith true = true ∧ (Instr.subT2 0 0 13 0).wfWith false = true := by decide
theorem test_illFormed_refused :
    refuses (exec (.subA1 0xF 13 0x010) (start false 0x8000 0x20001000)) (.notInSpec 0xF24DD010) = true := by decide

/-! ## Decoding: words of 95_test_vectors.md sections 2.1 to 2.5 -/

theorem test_decode_subA1 :
    decodeTableWord 32 0xE24DD010 = some (.subA1 0xE 13 0x010)
      ∧ decodeTableWord 32 0x024DE0FF = some (.subA1 0x0 14 0x0FF)
      ∧ decodeTableWord 32 0xE24DF0EF = some (.subA1 0xE 15 0x0EF) := by decide
theorem test_decode_subsA1 :
    decodeTableWord 32 0x125D2102 = some (.subsA1 0x1 2 0x102)
      ∧ decodeTableWord 32 0xB25DC201 = some (.subsA1 0xB 12 0x201) := by decide
theorem test_decode_subT1 :
    decodeTableWord 16 0xB080 = some (.subT1 0x00) ∧ decodeTableWord 16 0xB0FF = some (.subT1 0x7F) := by decide
theorem test_decode_subT2 :
    decodeTableWord 32 0xF5AD77FF = some (.subT2 1 7 7 0xFF)
      ∧ decodeTableWord 32 0xF1AD14AB = some (.subT2 0 1 4 0xAB)
      ∧ decodeTableWord 32 0xF1AD2300 = some (.subT2 0 2 3 0x00) := by decide
theorem test_decode_subsT2 :
    decodeTableWord 32 0xF1BD48FF = some (.subsT2 0 4 8 0xFF)
      ∧ decodeTableWord 32 0xF5BD057F = some (.subsT2 1 0 5 0x7F) := by decide
theorem test_decode_subT3 :
    decodeTableWord 32 0xF6AD7DFF = some (.subT3 1 7 13 0xFF)
      ∧ decodeTableWord 32 0xF2AD1E00 = some (.subT3 0 1 14 0x00) := by decide
/-- Bytes in increasing address order, as section 2 lists them. -/
theorem test_decode_bytes :
    decodeBytes false [0xFF, 0x14, 0x4D, 0x02] = .ok (.subA1 0x0 1 0x4FF, [])
      ∧ decodeBytes true [0xBD, 0xF1, 0x01, 0x00, 0x84, 0xB0] = .ok (.subsT2 0 0 0 0x01, [0x84, 0xB0])
      ∧ decodeBytes true [0xA0, 0xB0, 0xAD] = .ok (.subT1 0x20, [0xAD]) := by decide
/-- Section 2.1, words that must not decode. -/
theorem test_reject_A1 :
    decodeBytes false [0x10, 0xD0, 0x4D, 0xF2] = .error (.notInSpec 0xF24DD010)
      ∧ decodeBytes false [0x10, 0xD0, 0x4C, 0xE2] = .error (.notInSpec 0xE24CD010)
      ∧ decodeBytes false [0x10, 0xD0, 0x8D, 0xE2] = .error (.notInSpec 0xE28DD010)
      ∧ decodeBytes false [0x10, 0xD0, 0x4D, 0xE0] = .error (.notInSpec 0xE04DD010)
      ∧ decodeBytes false [0x10, 0xD0, 0x6D, 0xE2] = .error (.notInSpec 0xE26DD010)
      ∧ decodeBytes false [0x10, 0xD0, 0xCD, 0xE2] = .error (.notInSpec 0xE2CDD010) := by decide
/-- Section 2.2. -/
theorem test_reject_T1 :
    decodeBytes true [0x04, 0xB0] = .error (.notInSpec 0xB004)
      ∧ decodeBytes true [0x00, 0xB1] = .error (.notInSpec 0xB100)
      ∧ decodeBytes true [0x84, 0xA8] = .error (.notInSpec 0xA884)
      ∧ decodeBytes true [0x00, 0xBF] = .error (.notInSpec 0xBF00) := by decide
/-- Section 2.3. -/
theorem test_reject_T2 :
    decodeT32With true 0xF1AD 0x0F10 = .error (.unpredictable .t2SubRdPc)
      ∧ decodeT32With true 0xF1BD 0x0F10 = .error (.notInSpec 0xF1BD0F10)
      ∧ decodeT32With false 0xF1BD 0x1300 = .error (.unpredictable .t32ExpandImmZeroByte)
      ∧ decodeT32With true 0xF1AD 0x8D10 = .error (.notInSpec 0xF1AD8D10)
      ∧ decodeT32With true 0xF1A0 0x0D10 = .error (.notInSpec 0xF1A00D10)
      ∧ decodeT32With true 0xF10D 0x0D10 = .error (.notInSpec 0xF10D0D10)
      ∧ decodeT32With true 0xF1CD 0x0D10 = .error (.notInSpec 0xF1CD0D10)
      ∧ decodeT32With true 0xE1AD 0x0D10 = .error (.notInSpec 0xE1AD0D10) := by decide
/-- Section 2.4. -/
theorem test_reject_T3 :
    decodeT32With true 0xF2AD 0x0F04 = .error (.unpredictable .t3RdPc)
      ∧ decodeT32With true 0xF2AD 0x8D10 = .error (.notInSpec 0xF2AD8D10)
      ∧ decodeT32With true 0xF2BD 0x0D10 = .error (.notInSpec 0xF2BD0D10)
      ∧ decodeT32With true 0xF20D 0x0D10 = .error (.notInSpec 0xF20D0D10)
      ∧ decodeT32With true 0xF2A0 0x0D10 = .error (.notInSpec 0xF2A00D10) := by decide
/-- Section 2.5: the same four bytes in the two instruction set states. -/
theorem test_class_selection :
    decodeBytes true [0xAD, 0xF1, 0x10, 0x0D] = .ok (.subT2 0 0 13 0x10, [])
      ∧ decodeBytes false [0xAD, 0xF1, 0x10, 0x0D] = .error (.notInSpec 0x0D10F1AD)
      ∧ isLongT32 0xE800 = true ∧ isLongT32 0xF800 = true ∧ isLongT32 0xB084 = false := by decide

/-! ## Immediates (section 3) and flags (section 4) -/

theorem test_a32ExpandImm :
    a32ExpandImm 0x104 = 0x00000001 ∧ a32ExpandImm 0xE3F = 0x000003F0 ∧ a32ExpandImm 0x102 = 0x80000000
      ∧ a32ExpandImm 0xF00 = 0 ∧ a32ExpandImm 0x3FC = 0xF0000003 := by decide
theorem test_t32ExpandImm :
    t32ExpandImm 0x2AB = 0xAB00AB00 ∧ t32ExpandImm 0x3FF = 0xFFFFFFFF ∧ t32ExpandImm 0x400 = 0x80000000
      ∧ t32ExpandImm 0x4C8 = 0x64000000 ∧ t32ExpandImm 0xF80 = 0x00000100 ∧ t32ExpandImm 0x100 = 0 := by decide
theorem test_addWithCarry :
    addWithCarry 0x0000000F (~~~0xF000000F) true = (0x10000000, 0b0000)
      ∧ addWithCarry 0x80000010 (~~~0x00000020) true = (0x7FFFFFF0, 0b0011)
      ∧ addWithCarry 0x7FFFFFFF (~~~0xFFFFFFFF) true = (0x80000000, 0b1001)
      ∧ addWithCarry 0 (~~~0) true = (0, 0b0110) := by decide

/-! ## One step of each instruction (section 5) -/

/-- V1. -/
theorem test_subA1_V1 :
    ends (step ((start false 0x8000 0x20001000).withFetchWord 32 0xE24DD010)) (fun t =>
      t.readReg 13 == 0x20000FF0 && t.pc == 0x8004 && flags t == [false, false, false, false]) = true := by decide
/-- V13: an interworking branch to T32 state. -/
theorem test_subA1_V13 :
    ends (step ((start false 0x8000 0x00009100).withFetchWord 32 0xE24DF0EF)) (fun t =>
      t.pc == 0x9010 && t.pstate.t && t.readReg 13 == 0x00009100) = true := by decide
/-- V7. -/
theorem test_subsA1_V7 :
    ends (step ((start false 0x8000 0x7FFFFFFF).withFetchWord 32 0x125D2102)) (fun t =>
      t.readReg 2 == 0xFFFFFFFF && flags t == [true, false, false, true] && t.pc == 0x8004) = true := by decide
/-- V17. -/
theorem test_subsA1_V17 :
    faults (step ((startIn .hyp 0x8000 0x00008010).withFetchWord 32 0xE25DF004)) (.undefined 0x8000) = true := by
  decide
/-- V32. -/
theorem test_subT1_V32 :
    ends (step ((start true 0x100 0x00000100).withFetchWord 16 0xB0FF)) (fun t =>
      t.readReg 13 == 0xFFFFFF04 && flags t == [false, false, false, false] && t.pc == 0x102) = true := by decide
/-- V33. -/
theorem test_subT1_V33 :
    ends (step ((withIt 0x08 (start true 0x100 0x20001000)).withFetchWord 16 0xB084)) (fun t =>
      t.readReg 13 == 0x20001000 && t.pc == 0x102 && t.pstate.it == 0) = true := by decide
/-- V36. -/
theorem test_subT2_V36 :
    ends (step ((start true 0x100 0x20001000).withFetchWord 32 0xF1AD14AB)) (fun t =>
      t.readReg 4 == 0x1F550F55 && t.pc == 0x104) = true := by decide
/-- V43: refused although the condition fails. -/
theorem test_subT2_V43 :
    refuses (step ((withIt 0x08 (start true 0x100 0x20001000)).withFetchWord 32 0xF1AD0F10))
      (.unpredictable .t2SubRdPc) = true := by decide
/-- V40. -/
theorem test_subsT2_V40 :
    ends (step ((start true 0x100 0x80000000).withFetchWord 32 0xF5BD057F)) (fun t =>
      t.readReg 5 == 0x7F010000 && flags t == [false, false, true, true] && t.pc == 0x104) = true := by decide
/-- V45, with `admit_t32_zero_byte`. -/
theorem test_subsT2_V45 :
    ends (step ((start true 0x100 0x20001000).withFetchWord 32 0xF1BD1300)) (fun t =>
      t.readReg 3 == 0x20001000 && flags t == [false, false, true, false]) = true := by decide
/-- V47. -/
theorem test_subT3_V47 :
    ends (step ((start true 0x100 0x20001000).withFetchWord 32 0xF6AD7DFF)) (fun t =>
      t.readReg 13 == 0x20000001 && t.pc == 0x104) = true := by decide
/-- V48. -/
theorem test_subT3_V48 :
    ends (step ((withFlags 0b1010 (start true 0x100 0x20001000)).withFetchWord 32 0xF2AD2034)) (fun t =>
      t.readReg 0 == 0x20000DCC && flags t == [true, false, true, false]) = true := by decide
/-- V24, V50. -/
theorem test_refusals_V24_V50 :
    refuses (step ((start false 0xFFFFFFFC 0x20001000).withFetchWord 32 0xE24DD010)) .pcWrap = true
      ∧ refuses (step ((withIt 0xF1 (start true 0x100 0x20001000)).withFetchWord 16 0xB084))
          (.unpredictable .itStateInconsistent) = true := by decide
/-- V23, V51, V52. -/
theorem test_stuck_V23_V51_V52 :
    faults (step ((start false 0x8002 0x20001000).withFetchWord 32 0xE24DD010)) (.pcMisaligned 0x8002) = true
      ∧ faults (step ((start true 0x101 0x20001000).withFetchWord 16 0xB084)) (.pcMisaligned 0x101) = true
      ∧ faults (step ((start true 0x100 0x20001000).place true [0xAD, 0xF1])) (.noText 0x100) = true := by decide
/-- V15, V18, V19. -/
theorem test_refusals_V15_V18_V19 :
    refuses (step ((start false 0x8000 0x00009004).withFetchWord 32 0xE24DF002))
        (.unpredictable .a32BranchTargetMisaligned) = true
      ∧ refuses (step ((startIn .user 0x8000 0x00008010).withFetchWord 32 0xE25DF004))
          (.unpredictable .aluExcretUserSystem) = true
      ∧ refuses (step ((startIn .system 0x8000 0x00008010).withFetchWord 32 0xE25DF004))
          (.unpredictable .aluExcretUserSystem) = true := by decide
/-- V20, with the spec's own values of the parameters. -/
theorem test_table_V20 :
    refuses (executeA32 Config.tableParams 0xE (operandsA1 true 0xF 0x004) (start false 0x8000 0x00008010))
      .exceptionReturnAbsent = true := by decide
/-- R90: launch states that break a constraint (V23, V51, V50). -/
theorem test_launch :
    refuses (launch (start false 0x8002 0x20001000)) .launchNotAllowed = true
      ∧ refuses (launch (start true 0x101 0x20001000)) .launchNotAllowed = true
      ∧ refuses (launch (withIt 0xF1 (start true 0x100 0x20001000))) .launchNotAllowed = true
      ∧ completes (launch (withIt 0x06 (start true 0x100 0x1000))) = true := by decide
/-- Hand calculation from R18, R69: SPSR 0xA0000030 names User mode, T32 state, N = 1 and C = 1. -/
theorem test_subsA1_return :
    ends (step ((withSpsrSvc 0xA0000030 (start false 0x8000 0x00008015)).withFetchWord 32 0xE25DF004)) (fun t =>
      t.pc == 0x8010 && t.pstate.t && t.pstate.m == .user && flags t == [true, false, true, false]
        && !t.pstate.i && t.eventRegister) = true := by decide

/-- R94: a run that reaches END, and one that stops short of it (V1's instruction alone). -/
theorem test_run_end :
    (match runTo ⟨0x8004, false⟩ 1 ((start false 0x8000 0x20001000).withFetchWord 32 0xE24DD010) with
      | .ended t => t.pc == 0x8004
      | .fault _ | .refused _ | .running _ => false) = true
      ∧ (match runTo ⟨0x8008, false⟩ 1 ((start false 0x8000 0x20001000).withFetchWord 32 0xE24DD010) with
      | .running t => t.pc == 0x8004
      | .fault _ | .refused _ | .ended _ => false) = true := by decide
/-- D18: a run launched at END has not ended; END holds no text. -/
theorem test_run_launched_at_end :
    (match runFrom ⟨0x8004, false⟩ 1 (start false 0x8004 0x20001000) with
      | .fault r => r == .noText 0x8004
      | .ended _ | .refused _ | .running _ => false) = true := by decide

/-! ## A witness for every obligation that has hypotheses -/

theorem witness_DecodeOfEncode :
    (Instr.subT2 0 1 3 0).wfWith true = true ∧ (Instr.subsT2 1 7 14 0xFF).wfWith false = true
      ∧ (Instr.subA1 0xE 15 0xFFF).wfWith false = true := by decide
theorem witness_EncodeOfDecode :
    decodeBytesWith false true [0xFF, 0xB0, 0x01] = .ok (.subT1 0x7F, [0x01]) := by decide
theorem witness_DecodeTurnsAway :
    (14#4 ≠ 0xF#4) ∧ isZeroByteForm 0 1 0 = true ∧ isZeroByteForm 0 2 0 = true ∧ isZeroByteForm 0 3 0 = true := by
  decide
theorem witness_OtherBitsNotInSpec :
    (wordOfBytes 0x10 0xD0 0x8D 0xE2 &&& 0x0FEF0000#32 ≠ 0x024D0000#32)
      ∧ (wordOfBytes 0x10 0xD0 0x4D 0xF2).extractLsb' 28 4 = 0xF#4
      ∧ ((halfOfBytes 0x04 0xB0).extractLsb' 11 5 ∉ [0b11101#5, 0b11110#5, 0b11111#5]
        ∧ halfOfBytes 0x04 0xB0 &&& 0xFF80#16 ≠ 0xB080#16)
      ∧ ((halfOfBytes 0xCD 0xF1).extractLsb' 11 5 ∈ [0b11101#5, 0b11110#5, 0b11111#5]
        ∧ halfOfBytes 0xCD 0xF1 &&& 0xFBEF#16 ≠ 0xF1AD#16 ∧ halfOfBytes 0xCD 0xF1 &&& 0xFBFF#16 ≠ 0xF2AD#16)
      ∧ (halfOfBytes 0x10 0x8D).getLsbD 15 = true := by decide
theorem witness_StepRunsDecodedInstruction :
    let s := (start true 0x100 0x20001000).withFetchWord 16 0xB084
    s.pstate.il = false ∧ s.pcAligned = true
      ∧ decodeBytes s.pstate.t (s.mem.window s.pc.toNat 4) = .ok (.subT1 4, [0, 0]) := by decide
theorem witness_StepTurnsAway :
    let s := (start true 0x100 0).withFetchWord 32 0xF1BD0F10
    let u := (start true 0x100 0).withFetchWord 32 0xF1AD0F10
    (s.pstate.il = false ∧ s.pcAligned = true
        ∧ decodeBytes s.pstate.t (s.mem.window s.pc.toNat 4) = .error (.notInSpec 0xF1BD0F10))
      ∧ (u.pstate.il = false ∧ u.pcAligned = true
        ∧ decodeBytes u.pstate.t (u.mem.window u.pc.toNat 4) = .error (.unpredictable .t2SubRdPc)) := by decide
theorem witness_FetchStuck_misaligned :
    (let s := start false 0x8002 0
     s.pstate.il = false ∧ s.pstate.t = false ∧ s.pc.extractLsb' 0 2 ≠ 0#2)
      ∧ (let s := start true 0x101 0
         s.pstate.il = false ∧ s.pstate.t = true ∧ s.pc.getLsbD 0 = true) := by decide
theorem witness_FetchStuck_absent :
    (let s := (start false 0x8000 0).place false [0x10, 0xD0, 0x4D]
     s.pstate.il = false ∧ s.pstate.t = false ∧ s.pc.extractLsb' 0 2 = 0#2 ∧ s.mem.read (s.pc.toNat + 3) = none)
      ∧ (let s := (start true 0x100 0).place true [0x84]
         s.pstate.il = false ∧ s.pstate.t = true ∧ s.pc.getLsbD 0 = false ∧ s.mem.read (s.pc.toNat + 1) = none)
      ∧ (let s := (start true 0xFFFFFFFE 0).place true [0xAD, 0xF1]
         s.pstate.il = false ∧ s.pstate.t = true ∧ s.pc.getLsbD 0 = false
          ∧ s.mem.read s.pc.toNat = some 0xAD ∧ s.mem.read (s.pc.toNat + 1) = some 0xF1
          ∧ isLongT32 (halfOfBytes 0xAD 0xF1) = true ∧ s.mem.read (s.pc.toNat + 2) = none) := by decide
theorem witness_IllegalExecutionStateStops :
    ((start false 0x8000 0).setPState { PState.reset with il := true }).pstate.il = true := by decide
/-- At the top of the address space, where the bound on the pc is met with equality. -/
theorem witness_PlacedInstructionIsFetched :
    (let s := start false 0xFFFFFFFC 0
     let i := Instr.subA1 0xE 13 0x010
     i.wf = true ∧ s.pstate.il = false ∧ s.pc.toNat + i.len = 2 ^ 32 ∧ i.isT32 = false ∧ s.pc.extractLsb' 0 2 = 0#2)
      ∧ (let s := start true 0xFFFFFFFE 0
         let i := Instr.subT1 0x7F
         i.wf = true ∧ s.pstate.il = false ∧ s.pc.toNat + i.len = 2 ^ 32 ∧ i.isT32 = true ∧ s.pc.getLsbD 0 = false)
      := by decide
theorem witness_A32ImmediateIsRotation : (31 < 32) ∧ (a32ExpandImm 0x102).getLsbD 31 = true := by decide
/-- Each of the five ranges of the top four bits, at its ends. -/
theorem witness_T32ImmediateForms :
    (0x0FF#12).extractLsb' 8 4 = 0#4 ∧ (0x1FF#12).extractLsb' 8 4 = 1#4 ∧ (0x2FF#12).extractLsb' 8 4 = 2#4
      ∧ (0x3FF#12).extractLsb' 8 4 = 3#4 ∧ 4 ≤ ((0x400#12).extractLsb' 8 4 : BitVec 4).toNat
      ∧ 4 ≤ ((0xFFF#12).extractLsb' 8 4 : BitVec 4).toNat := by decide
theorem witness_ConditionTable :
    (let p := { PState.reset with it := 0x18 }
     p.it.extractLsb' 0 4 ≠ 0#4 ∧ p.it.extractLsb' 4 4 ≠ 0xF#4)
      ∧ PState.reset.it = 0 := by decide
/-- P3 of section 6 steps IT from 0x06 to 0x0C to 0x18 to 0x00. -/
theorem witness_ItStateAdvances :
    itAdvance 0x06 = 0x0C ∧ itAdvance 0x0C = 0x18 ∧ itAdvance 0x18 = 0
      ∧ (0x18#8).extractLsb' 0 3 = 0#3 ∧ (0x06#8).extractLsb' 0 3 ≠ 0#3
      ∧ (Instr.subT1 4).isT32 = true
      ∧ completes (exec (.subT1 4) (withIt 0x06 (start true 0x100 0x1000))) = true
      ∧ (Instr.subA1 0xE 0 0).isT32 = false ∧ (Instr.subA1 0xE 0 0).wf = true
      ∧ (withIt 0x08 (start false 0x8000 0)).pstate.it ≠ 0
      ∧ (withIt 0x08 (start false 0x8000 0)).pstate.t = false := by decide
theorem witness_ModeEncodings :
    (0b10100#5) ∉ [16#5, 17#5, 18#5, 19#5, 22#5, 23#5, 26#5, 27#5, 31#5] ∧ Mode.ofBits 0b10100 = none := by decide
/-- The hypotheses of SubA1Result and SubsA1Result, at the highest pc that meets them, condition passed and failed. -/
theorem witness_A1Results :
    let s := start false 0xFFFFFFF8 0x80000000
    (0x1#4 ≠ 0xF#4 ∧ 14#4 ≠ 0xF#4 ∧ s.pstate.it = 0 ∧ s.pc.toNat + 4 < 2 ^ 32)
      ∧ conditionHolds 0x1 s.pstate = true ∧ conditionHolds 0x0 s.pstate = false := by decide
/-- The hypotheses of SubT1Result, in an IT block and at the highest pc. -/
theorem witness_SubT1Result :
    let s := withIt 0x18 (start true 0xFFFFFFFC 0)
    currentCondT32 s.pstate = .ok 0x1 ∧ s.pc.toNat + 2 < 2 ^ 32 := by decide
/-- The hypotheses of SubT2Result, SubsT2Result and SubT3Result, both clauses of each. -/
theorem witness_T32Results :
    let s := start true 0xFFFFFFFA 0
    (14#4 ≠ 0xF#4 ∧ currentCondT32 s.pstate = .ok 0xE ∧ s.pc.toNat + 4 < 2 ^ 32) ∧ (15#4 = 0xF#4) := by decide
/-- V13 to V16: a target of each of the three kinds, and a condition that fails. -/
theorem witness_SubPcBranches :
    (let s := start false 0x8000 0x9100
     0xE#4 ≠ 0xF#4 ∧ s.pstate.t = false ∧ s.pstate.it = 0 ∧ conditionHolds 0xE s.pstate = true
      ∧ (s.readReg 13 - a32ExpandImm 0x0EF).getLsbD 0 = true)
      ∧ ((start false 0x8000 0x9004).readReg 13 - a32ExpandImm 0x004).toNat % 4 = 0
      ∧ ((start false 0x8000 0x9004).readReg 13 - a32ExpandImm 0x002).toNat % 4 = 2
      ∧ conditionHolds 0x0 (start false 0x8000 0x9100).pstate = false
      ∧ (start false 0x8000 0x9100).pc.toNat + 4 < 2 ^ 32 := by decide
/-- SPSRs that describe a legal return: to User mode in T32 state, to System mode in A32 state, and to User mode with
IL set. -/
theorem witness_SubsPcReturns :
    let legal := fun (w : Word) (target : Mode) =>
      let s := withSpsrSvc w (start false 0x8000 0x8015)
      0xE#4 ≠ 0xF#4 ∧ s.pstate.it = 0 ∧ conditionHolds 0xE s.pstate = true ∧ s.pstate.m ≠ .hyp
        ∧ s.spsr.get s.pstate.m = some w ∧ Mode.ofBits (w.extractLsb' 0 5) = some target ∧ target.implemented = true
        ∧ (target = .hyp → s.pstate.m = .monitor)
        ∧ (target = .monitor → s.pstate.m = .monitor ∨ s.security = .secure)
    (legal 0xA0000030 .user ∧ (0xA0000030#32).getLsbD 20 = false ∧ (0xA0000030#32).getLsbD 5 = true)
      ∧ (legal 0x0000001F .system ∧ (0x0000001F#32).getLsbD 20 = false ∧ (0x0000001F#32).getLsbD 5 = false)
      ∧ (legal 0x00100010 .user ∧ (0x00100010#32).getLsbD 20 = true) := by decide
/-- SPSRs that describe an illegal return: a reserved mode, Hyp from Supervisor, Monitor from Non-secure. (Whether a mode
is implemented is open, so no concrete state meets that alternative alone.) -/
theorem witness_IllegalReturnSetsIL :
    (let s := withSpsrSvc 0x00000014 (start false 0x8000 0x8015)
     0xE#4 ≠ 0xF#4 ∧ s.pstate.it = 0 ∧ conditionHolds 0xE s.pstate = true ∧ s.pstate.m ≠ .hyp
      ∧ s.spsr.get s.pstate.m = some 0x00000014 ∧ Mode.ofBits ((0x00000014#32).extractLsb' 0 5) = none)
      ∧ (let s := withSpsrSvc 0x0000001A (start false 0x8000 0x8015)
         s.spsr.get s.pstate.m = some 0x0000001A ∧ Mode.ofBits ((0x0000001A#32).extractLsb' 0 5) = some .hyp
          ∧ s.pstate.m ≠ .monitor)
      ∧ (let s := { withSpsrSvc 0x00000016 (start false 0x8000 0x8015) with security := .nonSecure }
         s.spsr.get s.pstate.m = some 0x00000016 ∧ Mode.ofBits ((0x00000016#32).extractLsb' 0 5) = some .monitor
          ∧ s.pstate.m ≠ .monitor ∧ s.security = .nonSecure) := by decide
/-- V17 and V21. -/
theorem witness_SubsPcUndefinedInHyp :
    let s := startIn .hyp 0x8000 0x8010
    (0xE#4 ≠ 0xF#4 ∧ s.pstate.it = 0 ∧ s.pstate.m = .hyp ∧ conditionHolds 0xE s.pstate = true)
      ∧ (0x0#4 ≠ 0xF#4 ∧ conditionHolds 0x0 s.pstate = false ∧ s.pc.toNat + 4 < 2 ^ 32) := by decide
/-- V18 and V19. -/
theorem witness_SubsPcInUserOrSystem :
    let meets := fun (m : Mode) =>
      let s := startIn m 0xFFFFFFF8 0x8010
      0xE#4 ≠ 0xF#4 ∧ s.pstate.it = 0 ∧ s.pc.toNat + 4 < 2 ^ 32 ∧ conditionHolds 0xE s.pstate = true
        ∧ conditionHolds 0x0 s.pstate = false ∧ s.pstate.m = m
    meets .user ∧ meets .system := by decide
/-- Both values of each parameter are settings; V15, V18 and V20 meet the rest, clause by clause. -/
theorem witness_ParametersDecide :
    (let s := start false 0x8000 0x9004
     s.pstate.t = false ∧ s.pstate.it = 0 ∧ conditionHolds 0xE s.pstate = true
      ∧ (s.readReg 13 - a32ExpandImm 0x002).toNat % 4 = 2)
      ∧ (let s := startIn .user 0xFFFFFFF8 0x8010
         s.pstate.t = false ∧ s.pstate.it = 0 ∧ conditionHolds 0xE s.pstate = true ∧ s.pstate.m = .user
          ∧ s.pc.toNat + 4 < 2 ^ 32)
      ∧ (let s := start false 0x8000 0x8010
         s.pstate.t = false ∧ s.pstate.it = 0 ∧ conditionHolds 0xE s.pstate = true ∧ s.pstate.m ≠ .hyp
          ∧ s.spsr.get s.pstate.m = some 0)
      ∧ Config.tableParams.permitMisalignedTarget = false
      ∧ ({ Config.tableParams with permitMisalignedTarget := true } : Config.Params).permitMisalignedTarget = true := by
  decide
/-- The lowest pc that meets the bound, for each clause. -/
theorem witness_PcWrapRefused :
    (let s := start true 0xFFFFFFFE 0
     (Instr.subT1 4).wf = true ∧ 2 ^ 32 ≤ s.pc.toNat + (Instr.subT1 4).len ∧ (Instr.subT1 4).isT32 = true
      ∧ currentCondT32 s.pstate = .ok 0xE)
      ∧ (let s := start false 0xFFFFFFFC 0
         let i := Instr.subA1 0xE 13 0x010
         i.wf = true ∧ 2 ^ 32 ≤ s.pc.toNat + i.len ∧ i.isT32 = false ∧ s.pstate.it = 0 ∧ destination i ≠ none)
      ∧ (let s := start false 0xFFFFFFFC 0
         let i := Instr.subsA1 0x0 0xF 0x004
         i.wf = true ∧ 2 ^ 32 ≤ s.pc.toNat + i.len ∧ s.pstate.it = 0 ∧ conditionHolds 0x0 s.pstate = false) := by
  decide
theorem witness_InconsistentItRefused :
    (Instr.subT1 4).isT32 = true ∧ (Instr.subT1 4).wf = true
      ∧ (let s := withIt 0xF1 (start true 0x100 0)
         s.pstate.it.extractLsb' 0 4 ≠ 0#4 ∧ s.pstate.it.extractLsb' 4 4 = 0xF#4)
      ∧ (let s := withIt 0x10 (start true 0x100 0)
         s.pstate.it.extractLsb' 0 4 = 0#4 ∧ s.pstate.it ≠ 0) := by decide
theorem witness_SubFrame :
    (∃ t, exec (.subA1 0xE 13 0x010) (start false 0x8000 0x20001000) = .next t)
      ∧ destination (.subA1 0xE 13 0x010) = some 13
      ∧ (∃ t, exec (.subT3 0 2 0 0x34) (start true 0x100 0x20001000) = .next t)
      ∧ destination (.subT3 0 2 0 0x34) = some 0 :=
  ⟨next_of_completes (by decide), by decide, next_of_completes (by decide), by decide⟩
theorem witness_SubsFrame :
    (∃ t, exec (.subsA1 0x1 2 0x102) (start false 0x8000 0x7FFFFFFF) = .next t)
      ∧ destination (.subsA1 0x1 2 0x102) = some 2
      ∧ (∃ t, exec (.subsT2 1 0 5 0x7F) (start true 0x100 0x80000000) = .next t)
      ∧ destination (.subsT2 1 0 5 0x7F) = some 5 :=
  ⟨next_of_completes (by decide), by decide, next_of_completes (by decide), by decide⟩
/-- V8 and V41: the same with a condition that fails. -/
theorem witness_SubsFrame_skipped :
    (∃ t, exec (.subsA1 0x1 2 0x102) (withFlags 0b0100 (start false 0x8000 0x7FFFFFFF)) = .next t)
      ∧ conditionHolds 0x1 (withFlags 0b0100 (start false 0x8000 0x7FFFFFFF)).pstate = false
      ∧ (∃ t, exec (.subsT2 0 0 0 0x01) (withIt 0x18 (withFlags 0b0100 (start true 0x100 0))) = .next t)
      ∧ currentCondT32 (withIt 0x18 (withFlags 0b0100 (start true 0x100 0))).pstate = .ok 0x1
      ∧ conditionHolds 0x1 (withIt 0x18 (withFlags 0b0100 (start true 0x100 0))).pstate = false :=
  ⟨next_of_completes (by decide), by decide, next_of_completes (by decide), by decide, by decide⟩
theorem witness_SubPcFrame :
    ∃ t, exec (.subA1 0xE 0xF 0x0EF) (start false 0x8000 0x00009100) = .next t :=
  next_of_completes (by decide)
theorem witness_SubsPcFrame :
    (∃ t, exec (.subsA1 0xE 0xF 0x004) (withSpsrSvc 0xA0000030 (start false 0x8000 0x8015)) = .next t)
      ∧ (∃ t, exec (.subsA1 0x0 0xF 0x004) (start false 0x8000 0x8015) = .next t)
      ∧ conditionHolds 0x0 (start false 0x8000 0x8015).pstate = false :=
  ⟨next_of_completes (by decide), next_of_completes (by decide), by decide⟩

/-- Each constraint broken (but Hyp mode where it is absent, which is open), and all of them met. -/
theorem witness_LaunchIsChecked :
    (let s := start false 0x8002 0
     s.pstate.t = false ∧ s.pc.toNat % 4 ≠ 0)
      ∧ (let s := withIt 0x08 (start false 0x8000 0)
         s.pstate.t = false ∧ s.pstate.it ≠ 0)
      ∧ (let s := start true 0x101 0
         s.pstate.t = true ∧ s.pc.toNat % 2 ≠ 0)
      ∧ (let s := withIt 0xF1 (start true 0x100 0)
         s.pstate.t = true ∧ s.pstate.it.extractLsb' 0 4 ≠ 0#4 ∧ s.pstate.it.extractLsb' 4 4 = 0xF#4)
      ∧ (let s := withIt 0x06 (start true 0x102 0)
         s.pc.toNat % 2 = 0 ∧ s.pstate.it.extractLsb' 4 4 ≠ 0xF#4 ∧ s.pstate.m ≠ .hyp) := by decide

/-- V1's run ends at 0x8004; and a state that stands at END. -/
theorem witness_RunEndsAfterStepAtEnd :
    (match runTo ⟨0x8004, false⟩ 2 ((start false 0x8000 0x20001000).withFetchWord 32 0xE24DD010) with
      | .ended _ => true
      | .fault _ | .refused _ | .running _ => false) = true
      ∧ (let s := start false 0x8004 0x20001000
         EndPoint.reached ⟨0x8004, false⟩ s = true ∧ s.pstate.il = false ∧ s.pcAligned = true) := by decide

/-- A Supervisor-mode state about to return to User mode, in T32 state. -/
def returning : State := (withSpsrSvc 0xA0000030 (start false 0x8000 0x8015)).withFetchWord 32 0xE25DF004

theorem witness_StepKeepsInvariant : returning.Inv ∧ ∃ t, step returning = .next t := by
  refine ⟨⟨Memory.load_wf _ _ ⟨List.Pairwise.nil, by simp [withSpsrSvc, start, State.reset]⟩, rfl, ?_, fun _ => ?_⟩,
    next_of_completes (by decide)⟩
  · intro m w h
    cases m <;> simp only [SpsrBanks.get, reduceCtorEq, Option.some.injEq] at h <;> subst h <;> decide
  · exact ⟨by decide, fun _ => by decide⟩

theorem witness_ModeChangesOnlyByReturn :
    ends (step returning) (fun t => t.pstate.m != returning.pstate.m) = true := by decide
theorem witness_UserModeConfined :
    (∃ t, step ((startIn .user 0x8000 0x1000).withFetchWord 32 0xE25DD010) = .next t)
      ∧ (∃ t, step ((startIn .system 0x8000 0x1000).withFetchWord 32 0xE25DD010) = .next t)
      ∧ sameCopy 13 .user .supervisor = false :=
  ⟨next_of_completes (by decide), next_of_completes (by decide), by decide⟩
theorem witness_InstructionSetChangesOnlyByPcWrite :
    ends (step ((start false 0x8000 0x9100).withFetchWord 32 0xE24DF0EF)) (fun t => t.pstate.t != false) = true := by
  decide
theorem witness_Runs : ∃ t, Sys2Proof.core.run 1 returning = .next t := by
  obtain ⟨t, h⟩ : ∃ t, step returning = .next t := next_of_completes (by decide)
  exact ⟨t, by simp only [Host.Core.run, show Sys2Proof.core.step returning = .next t from h]⟩
theorem witness_OnlySpIsRead :
    14 < 15 ∧ 14 ≠ 13 ∧ ∃ t, exec (.subA1 0xE 13 0x010) (start false 0x8000 0x20001000) = .next t :=
  ⟨by decide, by decide, next_of_completes (by decide)⟩

end Sys2Proof.Tests
end

namespace Sys2Proof

/-! ## The A1 and T1 words as the diagrams give them (R30, R31) -/

/-- A word of the two A1 rows: `op` holds the fixed bits 27 to 16, among them S (R30). -/
def a1Word (cond : BitVec 4) (op : BitVec 12) (rd : BitVec 4) (imm12 : BitVec 12) : Word := cond ++ op ++ rd ++ imm12

section
variable (cond rd : BitVec 4) (op imm12 : BitVec 12)

theorem a1Word_cond : (a1Word cond op rd imm12).extractLsb' 28 4 = cond := by
  unfold a1Word
  rw [BitVec.extractLsb'_append_eq_of_le (by decide), BitVec.extractLsb'_append_eq_of_le (by decide),
    BitVec.extractLsb'_append_eq_of_le (by decide), BitVec.extractLsb'_eq_self]

theorem a1Word_rd : (a1Word cond op rd imm12).extractLsb' 12 4 = rd := by
  unfold a1Word
  rw [BitVec.extractLsb'_append_eq_of_le (by decide), BitVec.extractLsb'_append_eq_of_add_le (by decide),
    BitVec.extractLsb'_eq_self]

theorem a1Word_imm12 : (a1Word cond op rd imm12).extractLsb' 0 12 = imm12 := by
  unfold a1Word
  rw [BitVec.extractLsb'_append_eq_of_add_le (by decide), BitVec.extractLsb'_eq_self]

/-- The mask of the A1 rows keeps the fixed bits and clears the others. -/
theorem a1Word_and_mask : a1Word cond op rd imm12 &&& 0x0FFF0000#32 = 0#4 ++ op ++ 0#4 ++ 0#12 := by
  have mask : (0x0FFF0000#32 : Word) = 0#4 ++ BitVec.allOnes 12 ++ 0#4 ++ 0#12 := rfl
  unfold a1Word
  rw [mask, BitVec.and_append, BitVec.and_append, BitVec.and_append, BitVec.and_allOnes, BitVec.and_zero,
    BitVec.and_zero, BitVec.and_zero]

end

/-- R40: the checks of the matched encoding give a well-formed term back. -/
theorem checkedWith_of_wfWith {zb : Bool} {i : Instr} (h : i.wfWith zb = true) : checkedWith zb i = .ok i := by
  rw [checkedWith, (Machine.encodingSpecificWith_none_iff zb i).mpr h]

/-- R30, S = 0. -/
theorem decodeA32With_sub (zb : Bool) {cond : BitVec 4} (rd : BitVec 4) (imm12 : BitVec 12) (h : cond ≠ 0xF#4) :
    decodeA32With zb (a1Word cond 0x24D#12 rd imm12) = .ok (.subA1 cond rd imm12) := by
  have row : a1Word cond 0x24D#12 rd imm12 &&& 0x0FFF0000#32 = 0x024D0000#32 := a1Word_and_mask ..
  rw [decodeA32With, if_pos row, a1Word_cond, a1Word_rd, a1Word_imm12]
  exact checkedWith_of_wfWith (bne_iff_ne.mpr h)

/-- R30, S = 1. -/
theorem decodeA32With_subs (zb : Bool) {cond : BitVec 4} (rd : BitVec 4) (imm12 : BitVec 12) (h : cond ≠ 0xF#4) :
    decodeA32With zb (a1Word cond 0x25D#12 rd imm12) = .ok (.subsA1 cond rd imm12) := by
  have row : a1Word cond 0x25D#12 rd imm12 &&& 0x0FFF0000#32 = 0x025D0000#32 := a1Word_and_mask ..
  have other : a1Word cond 0x25D#12 rd imm12 &&& 0x0FFF0000#32 ≠ 0x024D0000#32 := by rw [row]; decide
  rw [decodeA32With, if_neg other, if_pos row, a1Word_cond, a1Word_rd, a1Word_imm12]
  exact checkedWith_of_wfWith (bne_iff_ne.mpr h)

/-- R31. -/
theorem decodeT16_sub (imm7 : BitVec 7) : decodeT16 (0b101100001#9 ++ imm7) = .ok (.subT1 imm7) := by
  have row : (0b101100001#9 ++ imm7) &&& 0xFF80#16 = 0xB080#16 := by
    have mask : (0xFF80#16 : Half) = BitVec.allOnes 9 ++ 0#7 := rfl
    rw [mask, BitVec.and_append, BitVec.and_allOnes, BitVec.and_zero]
    rfl
  have field : (0b101100001#9 ++ imm7).extractLsb' 0 7 = imm7 := by
    rw [BitVec.extractLsb'_append_eq_of_add_le (by decide), BitVec.extractLsb'_eq_self]
  rw [decodeT16, if_pos row, field]

end Sys2Proof

namespace Sys2Proof.Machine

/-! ## The subtraction and its flags, by their closed forms (R52, R72) -/

/-- R51: the result as `(x - imm) mod 2^32`. -/
theorem sub_eq_ofNat (x imm : Word) : x - imm = BitVec.ofNat 32 (2 ^ 32 + x.toNat - imm.toNat) := by
  apply BitVec.eq_of_toNat_eq
  have := imm.isLt
  rw [BitVec.toNat_sub, BitVec.toNat_ofNat]
  congr 1
  omega

/-- Z: the result is zero where the operands are equal. -/
theorem sub_beq_zero (x imm : Word) : (x - imm == 0#32) = decide (x = imm) := by
  rw [Bool.eq_iff_iff, beq_iff_eq, decide_eq_true_iff, BitVec.sub_eq_iff_eq_add, BitVec.zero_add]

/-- C: the unsigned sum carries where there is no borrow. -/
theorem sub_carry (x imm : Word) :
    ((x - imm).toNat != x.toNat + (~~~imm).toNat + 1) = decide (imm.toNat ≤ x.toNat) := by
  have := imm.isLt
  have := x.isLt
  rw [Bool.eq_iff_iff, bne_iff_ne, decide_eq_true_iff, BitVec.toNat_sub, BitVec.toNat_not]
  omega

theorem toInt_not_eq (x : Word) : (~~~x).toInt = -x.toInt - 1 := by
  have := x.isLt
  rw [BitVec.toInt_eq_toNat_cond, BitVec.toInt_eq_toNat_cond, BitVec.toNat_not]
  split <;> split <;> omega

/-- V: the signed sum is not the result where the signed difference is out of range. -/
theorem sub_overflow (x imm : Word) :
    ((x - imm).toInt != x.toInt + (~~~imm).toInt + 1) =
      decide (x.toInt - imm.toInt < -2 ^ 31 ∨ 2 ^ 31 - 1 < x.toInt - imm.toInt) := by
  have := BitVec.toInt_lt (x := x)
  have := BitVec.toInt_lt (x := imm)
  have := BitVec.le_toInt x
  have := BitVec.le_toInt imm
  rw [Bool.eq_iff_iff, bne_iff_ne, decide_eq_true_iff, BitVec.toInt_sub, Int.bmod_def, toInt_not_eq]
  omega

/-- R63: `n : z : c : v` read off the result. -/
theorem addWithCarry_nzcv (x y : Word) :
    (addWithCarry x y true).2 =
      BitVec.ofBool (addWithCarry x y true).1.msb ++ BitVec.ofBool ((addWithCarry x y true).1 == 0#32)
        ++ BitVec.ofBool ((addWithCarry x y true).1.toNat != x.toNat + y.toNat + 1)
        ++ BitVec.ofBool ((addWithCarry x y true).1.toInt != x.toInt + y.toInt + 1) := rfl

theorem PState.setNzcv_append (p : PState) (n z c v : Bool) :
    p.setNzcv (BitVec.ofBool n ++ BitVec.ofBool z ++ BitVec.ofBool c ++ BitVec.ofBool v) =
      { p with n := n, z := z, c := c, v := v } := by
  cases n <;> cases z <;> cases c <;> cases v <;> rfl

/-- The flags SUBS writes are those of R52. -/
theorem setNzcv_sub (p : PState) (x imm : Word) :
    p.setNzcv (addWithCarry x (~~~imm) true).2 = p.subFlags x imm := by
  rw [addWithCarry_nzcv, addWithCarry_sub, sub_beq_zero, sub_carry, sub_overflow, PState.setNzcv_append,
    PState.subFlags]

/-! ## A form that writes a register, run to its end (R51 to R56) -/

/-- The state before the pc moves: skipped, or with the register (and, for SUBS, the flags) written. -/
def regEffect (i : Instr) (cond : BitVec 4) (d : Nat) (s : State) : State :=
  if conditionHolds cond s.pstate then
    (s.writeReg d (subResult i s)).setPState
      (endPState i (if (operandsOf i).setflags then s.pstate.subFlags (s.readReg 13) (operandsOf i).imm32 else s.pstate))
  else s.setPState (endPState i s.pstate)

/-- What every instruction with a register destination does, below the top of the address space. -/
theorem exec_reg {i : Instr} {s : State} {c : BitVec 4} {d : Nat} (hw : i.wf = true)
    (hc : currentCond i s.pstate = .ok c) (hd : destination i = some d) (hpc : s.pc.toNat + i.len < 2 ^ 32) :
    exec i s = .next ((regEffect i c d s).setPc (s.pc + BitVec.ofNat 32 i.len)) := by
  obtain ⟨ed, hlt⟩ := operandsOf_d hd
  rw [exec_of_cond hw hc, regEffect, subResult]
  split
  · rw [subSp_reg _ _ (by omega), ed, setNzcv_sub]
    split <;> exact advanceOf_next_iff.mpr ⟨hpc, rfl⟩
  · exact advanceOf_next_iff.mpr ⟨hpc, rfl⟩

theorem currentCondA32_of_it {cond : BitVec 4} {p : PState} (h : p.it = 0) : currentCondA32 cond p = .ok cond :=
  if_pos h

/-- R37: the T1 immediate is four times its field. -/
theorem operandsT1_imm32 (imm7 : BitVec 7) : (operandsT1 imm7).imm32.toNat = 4 * imm7.toNat := by
  have := imm7.isLt
  simp only [operandsT1, BitVec.toNat_setWidth, BitVec.toNat_append, BitVec.toNat_ofNat, Nat.zero_mod, Nat.or_zero,
    Nat.shiftLeft_eq]
  omega

/-! ## The statements -/

/-- Settles O17: the decoder on the A1 word, then `exec_reg` with the condition of the `cond` field. -/
theorem subA1Result : Obligations.SubA1Result := by
  intro cond rd imm12 hcond hrd
  refine ⟨fun zb => decodeA32With_sub zb rd imm12 hcond, fun s hit hpc => ?_⟩
  rw [exec_reg (i := .subA1 cond rd imm12) (bne_iff_ne.mpr hcond) (currentCondA32_of_it hit) (if_neg hrd) hpc,
    regEffect, subResult, sub_eq_ofNat]
  split <;> rfl

/-- Settles O18: as O17, with the flags of `setNzcv_sub`. -/
theorem subsA1Result : Obligations.SubsA1Result := by
  intro cond rd imm12 hcond hrd
  refine ⟨fun zb => decodeA32With_subs zb rd imm12 hcond, fun s hit hpc => ?_⟩
  rw [exec_reg (i := .subsA1 cond rd imm12) (bne_iff_ne.mpr hcond) (currentCondA32_of_it hit) (if_neg hrd) hpc,
    regEffect]
  split <;> rfl

/-- Settles O19: the decoder on the T1 halfword, then `exec_reg` with the condition IT gives. -/
theorem subT1Result : Obligations.SubT1Result := by
  intro imm7
  refine ⟨decodeT16_sub imm7, fun s cond hc hpc => ?_⟩
  have result : subResult (.subT1 imm7) s = BitVec.ofNat 32 (2 ^ 32 + (s.readReg 13).toNat - 4 * imm7.toNat) := by
    rw [← operandsT1_imm32]
    exact sub_eq_ofNat ..
  rw [exec_reg (i := .subT1 imm7) rfl hc rfl hpc, regEffect, result]
  split <;> rfl

end Sys2Proof.Machine

namespace Sys2Proof.Machine

/-! ## R72: the subtraction's sign and overflow -/

/-- R72: the signed difference is out of range iff the operands' signs differ and the result's sign is not the first
operand's. -/
theorem signedDifference_out_of_range (x imm : Word) :
    decide (x.toInt - imm.toInt < -2 ^ 31 ∨ 2 ^ 31 - 1 < x.toInt - imm.toInt) =
      (x.msb != imm.msb && (x - imm).msb != x.msb) := by
  have range : decide (x.toInt - imm.toInt < -2 ^ 31 ∨ 2 ^ 31 - 1 < x.toInt - imm.toInt) = x.ssubOverflow imm := by
    rw [BitVec.ssubOverflow, Bool.eq_iff_iff, Bool.or_eq_true, decide_eq_true_iff, decide_eq_true_iff,
      decide_eq_true_iff]
    omega
  rw [range, BitVec.ssubOverflow_eq]
  cases x.msb <;> cases imm.msb <;> cases (x - imm).msb <;> rfl

/-- Settles O11: the result is `addWithCarry_sub`, the flags are those of `setNzcv_sub`, read field by field. -/
theorem subtractionAndFlags : Obligations.SubtractionAndFlags := by
  intro x imm
  have result := addWithCarry_sub x imm
  have flags := setNzcv_sub .reset x imm
  have overflow := congrArg PState.v flags
  refine ⟨?result, congrArg PState.c flags, (congrArg PState.z flags).trans ?equal, ?sign, overflow.trans ?range, ?signs⟩
  case result => rw [result, sub_eq_ofNat, BitVec.toNat_ofNat]
  case equal => exact decide_eq_decide.mpr BitVec.toNat_inj.symm
  case sign => rw [result]; exact congrArg PState.n flags
  case range => exact decide_eq_decide.mpr (by omega)
  case signs => rw [result]; exact overflow.trans (signedDifference_out_of_range x imm)

/-! ## R64, R73: rotation -/

theorem ror_eq_rotateRight (v : Word) {n : Nat} (h : n < 32) : ror v n = v.rotateRight n := by
  rw [BitVec.rotateRight, Nat.mod_eq_of_lt h]
  rfl

/-- R73, bit by bit. -/
theorem ror_getLsbD (v : Word) {n j : Nat} (hn : n < 32) (hj : j < 32) :
    (ror v n).getLsbD j = v.getLsbD ((j + n) % 32) := by
  rw [ror_eq_rotateRight v hn, BitVec.getLsbD_rotateRight_of_lt hn]
  by_cases inside : j < 32 - n
  · have : (j + n) % 32 = n + j := by omega
    rw [this, decide_eq_true inside, cond_true]
  · have : (j + n) % 32 = j - (32 - n) := by omega
    rw [this, decide_eq_false inside, cond_false, decide_eq_true hj, Bool.true_and]

/-- R64: the A1 immediate, bit by bit. -/
theorem a32ExpandImm_getLsbD (imm12 : BitVec 12) {j : Nat} (hj : j < 32) :
    (a32ExpandImm imm12).getLsbD j =
      (imm12.extractLsb' 0 8).getLsbD ((j + 2 * (imm12.extractLsb' 8 4).toNat) % 32) := by
  have amount : 2 * (imm12.extractLsb' 8 4).toNat < 32 := by
    have := (imm12.extractLsb' 8 4).isLt
    omega
  rw [a32ExpandImm, ror_getLsbD _ amount hj, BitVec.getLsbD_setWidth, decide_eq_true (Nat.mod_lt _ (by decide)),
    Bool.true_and]

/-- Settles O12: the bits by `a32ExpandImm_getLsbD`; the table is sixteen closed facts. -/
theorem a32ImmediateIsRotation : Obligations.A32ImmediateIsRotation :=
  ⟨fun imm12 _ hj => a32ExpandImm_getLsbD imm12 hj, by decide⟩

end Sys2Proof.Machine

namespace Sys2Proof

/-! ## Words, halfwords and bytes as their fields (R22, R23, R30 to R33) -/

/-- The first halfword of a 32-bit T32 row: its top five bits, the box `i`, and the other fixed bits (R32, R33). -/
def longHw1 (top : BitVec 5) (ib : BitVec 1) (op : BitVec 10) : Half := top ++ ib ++ op

/-- The second halfword of a 32-bit T32 row: its top bit, then the boxes (R32, R33). -/
def longHw2 (top : BitVec 1) (imm3 : BitVec 3) (rd : BitVec 4) (imm8 : BitVec 8) : Half := top ++ imm3 ++ rd ++ imm8

theorem exists_append {m n : Nat} (x : BitVec (m + n)) : ∃ (hi : BitVec m) (lo : BitVec n), x = hi ++ lo :=
  ⟨_, _, BitVec.extractLsb'_append_extractLsb'.symm⟩

theorem append_inj {m n : Nat} {x x' : BitVec m} {y y' : BitVec n} : x ++ y = x' ++ y' ↔ x = x' ∧ y = y' := by
  refine ⟨fun h => ⟨?_, ?_⟩, fun ⟨hx, hy⟩ => hx ▸ hy ▸ rfl⟩
  · rw [← BitVec.extractLsb'_append_eq_left (a := x) (b := y), h, BitVec.extractLsb'_append_eq_left]
  · rw [← BitVec.extractLsb'_append_eq_right (a := x) (b := y), h, BitVec.extractLsb'_append_eq_right]

theorem exists_a1Word (w : Word) : ∃ cond op rd imm12, w = a1Word cond op rd imm12 := by
  obtain ⟨hi, imm12, rfl⟩ := exists_append (m := 20) (n := 12) w
  obtain ⟨hi, rd, rfl⟩ := exists_append (m := 16) (n := 4) hi
  obtain ⟨cond, op, rfl⟩ := exists_append (m := 4) (n := 12) hi
  exact ⟨cond, op, rd, imm12, rfl⟩

theorem exists_longHw1 (h : Half) : ∃ top ib op, h = longHw1 top ib op := by
  obtain ⟨hi, op, rfl⟩ := exists_append (m := 6) (n := 10) h
  obtain ⟨top, ib, rfl⟩ := exists_append (m := 5) (n := 1) hi
  exact ⟨top, ib, op, rfl⟩

theorem exists_longHw2 (h : Half) : ∃ top imm3 rd imm8, h = longHw2 top imm3 rd imm8 := by
  obtain ⟨hi, imm8, rfl⟩ := exists_append (m := 8) (n := 8) h
  obtain ⟨hi, rd, rfl⟩ := exists_append (m := 4) (n := 4) hi
  obtain ⟨top, imm3, rfl⟩ := exists_append (m := 1) (n := 3) hi
  exact ⟨top, imm3, rd, imm8, rfl⟩

section
variable (ib top1 : BitVec 1) (top : BitVec 5) (op : BitVec 10) (imm3 : BitVec 3) (rd : BitVec 4) (imm8 : BitVec 8)

theorem longHw1_top : (longHw1 top ib op).extractLsb' 11 5 = top := by
  rw [longHw1, BitVec.extractLsb'_append_eq_of_le (by decide), BitVec.extractLsb'_append_eq_left]

theorem longHw1_ib : (longHw1 top ib op).extractLsb' 10 1 = ib := by
  rw [longHw1, BitVec.extractLsb'_append_eq_of_le (by decide), BitVec.extractLsb'_append_eq_right]

theorem longHw2_imm3 : (longHw2 top1 imm3 rd imm8).extractLsb' 12 3 = imm3 := by
  rw [longHw2, BitVec.extractLsb'_append_eq_of_le (by decide), BitVec.extractLsb'_append_eq_of_le (by decide),
    BitVec.extractLsb'_append_eq_right]

theorem longHw2_rd : (longHw2 top1 imm3 rd imm8).extractLsb' 8 4 = rd := by
  rw [longHw2, BitVec.extractLsb'_append_eq_of_le (by decide), BitVec.extractLsb'_append_eq_right]

theorem longHw2_imm8 : (longHw2 top1 imm3 rd imm8).extractLsb' 0 8 = imm8 := by
  rw [longHw2, BitVec.extractLsb'_append_eq_right]

/-- The mask of the T2 and T3 rows keeps their fixed bits and clears the others. -/
theorem longHw_and_mask : (longHw1 top ib op ++ longHw2 top1 imm3 rd imm8) &&& 0xFBFF8000#32 =
    (top ++ 0#1 ++ op) ++ (top1 ++ 0#3 ++ 0#4 ++ 0#8) := by
  have mask : (0xFBFF8000#32 : Word) = (BitVec.allOnes 5 ++ 0#1 ++ BitVec.allOnes 10)
      ++ (BitVec.allOnes 1 ++ 0#3 ++ 0#4 ++ 0#8) := rfl
  rw [mask, BitVec.and_append, longHw1, BitVec.and_append, BitVec.and_append, longHw2, BitVec.and_append,
    BitVec.and_append, BitVec.and_append]
  simp only [BitVec.and_allOnes, BitVec.and_zero]

end

/-- A 32-bit T32 row fits where its fixed bits do. -/
theorem longHw_row (top : BitVec 5) (ib top1 : BitVec 1) (op op' : BitVec 10) (imm3 : BitVec 3) (rd : BitVec 4)
    (imm8 : BitVec 8) :
    (longHw1 top ib op ++ longHw2 top1 imm3 rd imm8) &&& 0xFBFF8000#32 =
      ((0b11110#5 ++ 0#1 ++ op') ++ (0#1 ++ 0#3 ++ 0#4 ++ 0#8)) ↔ top = 0b11110#5 ∧ op = op' ∧ top1 = 0#1 := by
  rw [longHw_and_mask]
  simp only [append_inj]
  tauto

/-! ## The encoder, field by field (R30 to R33) -/

theorem eq_a1Word {w : Word} {cond rd : BitVec 4} {op imm12 : BitVec 12}
    (h : ∀ j < 32, w.getLsbD j =
      if j < 12 then imm12.getLsbD j
      else if j < 16 then rd.getLsbD (j - 12)
      else if j < 28 then op.getLsbD (j - 16)
      else cond.getLsbD (j - 28)) : w = a1Word cond op rd imm12 := by
  apply BitVec.eq_of_getLsbD_eq
  intro j hj
  rw [h j hj, a1Word]
  simp only [BitVec.getLsbD_append]
  interval_cases j <;> rfl

theorem eq_longHw {w : Word} {ib : BitVec 1} {op : BitVec 10} {imm3 : BitVec 3} {rd : BitVec 4} {imm8 : BitVec 8}
    (h : ∀ j < 32, w.getLsbD j =
      if j < 8 then imm8.getLsbD j
      else if j < 12 then rd.getLsbD (j - 8)
      else if j < 15 then imm3.getLsbD (j - 12)
      else if j < 26 then (op ++ 0#1).getLsbD (j - 15)
      else if j < 27 then ib.getLsbD (j - 26)
      else (0b11110#5).getLsbD (j - 27)) :
    w = longHw1 0b11110#5 ib op ++ longHw2 0#1 imm3 rd imm8 := by
  apply BitVec.eq_of_getLsbD_eq
  intro j hj
  rw [h j hj, longHw1, longHw2]
  simp only [BitVec.getLsbD_append]
  interval_cases j <;> rfl

theorem bits_subA1_eq (cond rd : BitVec 4) (imm12 : BitVec 12) :
    (Instr.subA1 cond rd imm12).bits = a1Word cond 0x24D#12 rd imm12 := eq_a1Word (bits_subA1 cond rd imm12)

theorem bits_subsA1_eq (cond rd : BitVec 4) (imm12 : BitVec 12) :
    (Instr.subsA1 cond rd imm12).bits = a1Word cond 0x25D#12 rd imm12 := eq_a1Word (bits_subsA1 cond rd imm12)

theorem bits_subT1_eq (imm7 : BitVec 7) : (Instr.subT1 imm7).bits = 0#16 ++ (0b101100001#9 ++ imm7) := rfl

section
variable (ib : BitVec 1) (imm3 : BitVec 3) (rd : BitVec 4) (imm8 : BitVec 8)

theorem bits_subT2_eq : (Instr.subT2 ib imm3 rd imm8).bits =
    longHw1 0b11110#5 ib 0b0110101101#10 ++ longHw2 0#1 imm3 rd imm8 := eq_longHw (bits_subT2 ib imm3 rd imm8)

theorem bits_subsT2_eq : (Instr.subsT2 ib imm3 rd imm8).bits =
    longHw1 0b11110#5 ib 0b0110111101#10 ++ longHw2 0#1 imm3 rd imm8 := eq_longHw (bits_subsT2 ib imm3 rd imm8)

theorem bits_subT3_eq : (Instr.subT3 ib imm3 rd imm8).bits =
    longHw1 0b11110#5 ib 0b1010101101#10 ++ longHw2 0#1 imm3 rd imm8 := eq_longHw (bits_subT3 ib imm3 rd imm8)

end

/-! ## The decoder on every word (R34, R40, R41) -/

theorem checkedWith_ok_iff {zb : Bool} {i j : Instr} : checkedWith zb i = .ok j ↔ i = j ∧ i.wfWith zb = true := by
  rw [← Machine.encodingSpecificWith_none_iff, checkedWith]
  split <;> simp_all

/-- R30: an A32 word is of class A1 where its bits 27 to 16 are one of the two rows'. -/
theorem decodeA32With_a1Word (zb : Bool) (cond rd : BitVec 4) (op imm12 : BitVec 12) :
    decodeA32With zb (a1Word cond op rd imm12) =
      if op = 0x24D#12 then checkedWith zb (.subA1 cond rd imm12)
      else if op = 0x25D#12 then checkedWith zb (.subsA1 cond rd imm12)
      else .error (.notInSpec (a1Word cond op rd imm12)) := by
  have row (op' : BitVec 12) :
      a1Word cond op rd imm12 &&& 0x0FFF0000#32 = 0#4 ++ op' ++ 0#4 ++ 0#12 ↔ op = op' := by
    rw [a1Word_and_mask]
    exact (BitVec.append_left_inj _).trans ((BitVec.append_left_inj _).trans (BitVec.append_right_inj _))
  rw [decodeA32With, a1Word_cond, a1Word_rd, a1Word_imm12]
  exact if_congr (row 0x24D) rfl (if_congr (row 0x25D) rfl rfl)

/-- R31: a T32 halfword is of class T1 where its top nine bits are the row's. -/
theorem decodeT16_append (op : BitVec 9) (imm7 : BitVec 7) :
    decodeT16 (op ++ imm7) =
      if op = 0b101100001#9 then .ok (.subT1 imm7) else .error (.notInSpec ((op ++ imm7).setWidth 32)) := by
  have row : (op ++ imm7) &&& 0xFF80#16 = 0xB080#16 ↔ op = 0b101100001#9 := by
    have mask : (0xFF80#16 : Half) = BitVec.allOnes 9 ++ 0#7 := rfl
    rw [mask, BitVec.and_append, BitVec.and_allOnes, BitVec.and_zero]
    exact BitVec.append_left_inj (s₂ := 0b101100001#9) 0#7
  have field : (op ++ imm7).extractLsb' 0 7 = imm7 := BitVec.extractLsb'_append_eq_right
  rw [decodeT16, field]
  exact if_congr row rfl rfl

/-- R32, R33: a T32 pair is of class T2 or T3 where its fixed bits are one of the three rows'. -/
theorem decodeT32With_longHw (zb : Bool) (top : BitVec 5) (ib top1 : BitVec 1) (op : BitVec 10) (imm3 : BitVec 3)
    (rd : BitVec 4) (imm8 : BitVec 8) :
    decodeT32With zb (longHw1 top ib op) (longHw2 top1 imm3 rd imm8) =
      if top = 0b11110#5 ∧ op = 0b0110101101#10 ∧ top1 = 0#1 then checkedWith zb (.subT2 ib imm3 rd imm8)
      else if top = 0b11110#5 ∧ op = 0b0110111101#10 ∧ top1 = 0#1 then checkedWith zb (.subsT2 ib imm3 rd imm8)
      else if top = 0b11110#5 ∧ op = 0b1010101101#10 ∧ top1 = 0#1 then checkedWith zb (.subT3 ib imm3 rd imm8)
      else .error (.notInSpec (longHw1 top ib op ++ longHw2 top1 imm3 rd imm8)) := by
  have row := longHw_row top ib top1 op (imm3 := imm3) (rd := rd) (imm8 := imm8)
  rw [decodeT32With, longHw1_ib, longHw2_imm3, longHw2_rd, longHw2_imm8]
  exact if_congr (row 0b0110101101#10) rfl (if_congr (row 0b0110111101#10) rfl (if_congr (row 0b1010101101#10) rfl rfl))

section
variable (zb : Bool) (ib : BitVec 1) (imm3 : BitVec 3) (rd : BitVec 4) (imm8 : BitVec 8)

theorem decodeT32With_subT2 : decodeT32With zb (longHw1 0b11110#5 ib 0b0110101101#10) (longHw2 0#1 imm3 rd imm8) =
    checkedWith zb (.subT2 ib imm3 rd imm8) := by
  rw [decodeT32With_longHw, if_pos (by decide)]

theorem decodeT32With_subsT2 : decodeT32With zb (longHw1 0b11110#5 ib 0b0110111101#10) (longHw2 0#1 imm3 rd imm8) =
    checkedWith zb (.subsT2 ib imm3 rd imm8) := by
  rw [decodeT32With_longHw, if_neg (by decide), if_pos (by decide)]

theorem decodeT32With_subT3 : decodeT32With zb (longHw1 0b11110#5 ib 0b1010101101#10) (longHw2 0#1 imm3 rd imm8) =
    checkedWith zb (.subT3 ib imm3 rd imm8) := by
  rw [decodeT32With_longHw, if_neg (by decide), if_neg (by decide), if_pos (by decide)]

end

/-! ## What the decoder accepts, by the encoder (R34, R41) -/

theorem decodeA32With_ok_iff {zb : Bool} {w : Word} {i : Instr} :
    decodeA32With zb w = .ok i ↔ i.isT32 = false ∧ i.bits = w ∧ i.wfWith zb = true := by
  constructor
  · intro h
    obtain ⟨cond, op, rd, imm12, rfl⟩ := exists_a1Word w
    rw [decodeA32With_a1Word] at h
    split_ifs at h with sub subs
    · obtain ⟨rfl, hw⟩ := checkedWith_ok_iff.mp h
      exact ⟨rfl, sub ▸ bits_subA1_eq .., hw⟩
    · obtain ⟨rfl, hw⟩ := checkedWith_ok_iff.mp h
      exact ⟨rfl, subs ▸ bits_subsA1_eq .., hw⟩
  · rintro ⟨ht, rfl, hw⟩
    cases i with
    | subA1 => rw [bits_subA1_eq, decodeA32With_a1Word, if_pos rfl, checkedWith_of_wfWith hw]
    | subsA1 => rw [bits_subsA1_eq, decodeA32With_a1Word, if_neg (by decide), if_pos rfl, checkedWith_of_wfWith hw]
    | subT1 | subT2 | subsT2 | subT3 => cases ht

theorem decodeT16_ok_iff {h : Half} {i : Instr} : decodeT16 h = .ok i ↔ i.len = 2 ∧ i.bits = 0#16 ++ h := by
  constructor
  · intro ok
    obtain ⟨op, imm7, rfl⟩ := exists_append (m := 9) (n := 7) h
    rw [decodeT16_append] at ok
    split_ifs at ok with row
    cases ok
    exact ⟨rfl, row ▸ bits_subT1_eq imm7⟩
  · rintro ⟨hl, hb⟩
    cases i with
    | subT1 imm7 =>
      rw [bits_subT1_eq, BitVec.append_right_inj] at hb
      exact hb ▸ decodeT16_sub imm7
    | subA1 | subsA1 | subT2 | subsT2 | subT3 => cases hl

theorem decodeT32With_ok_iff {zb : Bool} {hw1 hw2 : Half} {i : Instr} :
    decodeT32With zb hw1 hw2 = .ok i ↔
      i.isT32 = true ∧ i.len = 4 ∧ i.bits = hw1 ++ hw2 ∧ i.wfWith zb = true := by
  constructor
  · intro h
    obtain ⟨top, ib, op, rfl⟩ := exists_longHw1 hw1
    obtain ⟨top1, imm3, rd, imm8, rfl⟩ := exists_longHw2 hw2
    rw [decodeT32With_longHw] at h
    split_ifs at h with row row row
    all_goals
      obtain ⟨rfl, rfl, rfl⟩ := row
      obtain ⟨rfl, hw⟩ := checkedWith_ok_iff.mp h
    · exact ⟨rfl, rfl, bits_subT2_eq .., hw⟩
    · exact ⟨rfl, rfl, bits_subsT2_eq .., hw⟩
    · exact ⟨rfl, rfl, bits_subT3_eq .., hw⟩
  · rintro ⟨ht, hl, hb, hw⟩
    cases i with
    | subT2 =>
      rw [bits_subT2_eq, append_inj] at hb
      obtain ⟨rfl, rfl⟩ := hb
      rw [decodeT32With_subT2, checkedWith_of_wfWith hw]
    | subsT2 =>
      rw [bits_subsT2_eq, append_inj] at hb
      obtain ⟨rfl, rfl⟩ := hb
      rw [decodeT32With_subsT2, checkedWith_of_wfWith hw]
    | subT3 =>
      rw [bits_subT3_eq, append_inj] at hb
      obtain ⟨rfl, rfl⟩ := hb
      rw [decodeT32With_subT3, checkedWith_of_wfWith hw]
    | subA1 | subsA1 => cases ht
    | subT1 => cases hl

/-! ## The decoder on bytes (R22, R23) -/

theorem bytesOfWord_wordOfBytes (b0 b1 b2 b3 : Byte) : bytesOfWord (wordOfBytes b0 b1 b2 b3) = [b0, b1, b2, b3] := by
  rw [bytesOfWord, wordOfBytes, BitVec.extractLsb'_append_eq_right, BitVec.extractLsb'_append_eq_of_le (by decide),
    BitVec.extractLsb'_append_eq_right, BitVec.extractLsb'_append_eq_of_le (by decide),
    BitVec.extractLsb'_append_eq_of_le (by decide), BitVec.extractLsb'_append_eq_right,
    BitVec.extractLsb'_append_eq_of_le (by decide), BitVec.extractLsb'_append_eq_of_le (by decide),
    BitVec.extractLsb'_append_eq_left]

theorem bytesOfHalf_halfOfBytes (b0 b1 : Byte) : bytesOfHalf (halfOfBytes b0 b1) = [b0, b1] := by
  rw [bytesOfHalf, halfOfBytes, BitVec.extractLsb'_append_eq_right, BitVec.extractLsb'_append_eq_left]

theorem decodeBytesWith_word (zb : Bool) (w : Word) (rest : List Byte) :
    decodeBytesWith zb false (bytesOfWord w ++ rest) = (decodeA32With zb w).map (·, rest) := by
  simp only [bytesOfWord, List.cons_append, List.nil_append, decodeBytesWith, wordOfBytes_bytesOfWord]
  cases decodeA32With zb w <;> rfl

theorem decodeBytesWith_half (zb : Bool) {h : Half} (rest : List Byte) (short : isLongT32 h = false) :
    decodeBytesWith zb true (bytesOfHalf h ++ rest) = (decodeT16 h).map (·, rest) := by
  simp only [bytesOfHalf, List.cons_append, List.nil_append, decodeBytesWith, halfOfBytes_bytesOfHalf, short]
  cases decodeT16 h <;> rfl

theorem decodeBytesWith_halves (zb : Bool) {hw1 : Half} (hw2 : Half) (rest : List Byte) (long : isLongT32 hw1 = true) :
    decodeBytesWith zb true (bytesOfHalf hw1 ++ bytesOfHalf hw2 ++ rest) =
      (decodeT32With zb hw1 hw2).map (·, rest) := by
  simp only [bytesOfHalf, List.cons_append, List.nil_append, decodeBytesWith, halfOfBytes_bytesOfHalf, long]
  cases decodeT32With zb hw1 hw2 <;> rfl

/-- Too few bytes for an A32 word (R22). -/
theorem decodeBytesWith_short_word (zb : Bool) {bytes : List Byte} (hl : bytes.length < 4) :
    decodeBytesWith zb false bytes = .error .truncated := by
  match bytes, hl with
  | [], _ | [_], _ | [_, _], _ | [_, _, _], _ => rfl
  | _ :: _ :: _ :: _ :: _, hl => exact absurd hl (by simp)

/-- Too few bytes for a T32 halfword (R22). -/
theorem decodeBytesWith_short_half (zb : Bool) {bytes : List Byte} (hl : bytes.length < 2) :
    decodeBytesWith zb true bytes = .error .truncated := by
  match bytes, hl with
  | [], _ | [_], _ => rfl
  | _ :: _ :: _, hl => exact absurd hl (by simp)

/-- Too few bytes for the second halfword that the first announces (R22). -/
theorem decodeBytesWith_short_halves (zb : Bool) {h : Half} {rest : List Byte} (long : isLongT32 h = true)
    (hl : rest.length < 2) : decodeBytesWith zb true (bytesOfHalf h ++ rest) = .error .truncated := by
  simp only [bytesOfHalf, List.cons_append, List.nil_append, decodeBytesWith, halfOfBytes_bytesOfHalf, long]
  match rest, hl with
  | [], _ | [_], _ => rfl
  | _ :: _ :: _, hl => exact absurd hl (by simp)

/-- Every byte list is one of the shapes of the lemmas above, so what the decoder accepts is an A32 word, a T32 halfword
or a T32 pair that it accepts (R22, R34). -/
theorem decodeBytesWith_cases {zb t : Bool} {bytes : List Byte} {i : Instr} {rest : List Byte}
    (h : decodeBytesWith zb t bytes = .ok (i, rest)) :
    (t = false ∧ ∃ w, bytes = bytesOfWord w ++ rest ∧ decodeA32With zb w = .ok i)
      ∨ (t = true ∧ ∃ hw, bytes = bytesOfHalf hw ++ rest ∧ decodeT16 hw = .ok i)
      ∨ (t = true ∧ ∃ hw1 hw2, bytes = bytesOfHalf hw1 ++ bytesOfHalf hw2 ++ rest
          ∧ decodeT32With zb hw1 hw2 = .ok i) := by
  unfold decodeBytesWith at h
  split at h
  · split at h
    · cases h
      exact .inl ⟨rfl, _, by rw [bytesOfWord_wordOfBytes]; rfl, ‹_›⟩
    · cases h
  · split at h
    · split at h
      · split at h
        · rename_i ok
          cases h
          refine .inr (.inr ⟨rfl, _, _, ?_, ok⟩)
          rw [bytesOfHalf_halfOfBytes, bytesOfHalf_halfOfBytes]
          rfl
        · cases h
      · cases h
    · split at h
      · cases h
        exact .inr (.inl ⟨rfl, _, by rw [bytesOfHalf_halfOfBytes]; rfl, ‹_›⟩)
      · cases h
  · cases h

/-! ## The encoder's bytes (R22, R23) -/

theorem encode_A32 {i : Instr} (h : i.isT32 = false) : encode i = bytesOfWord i.bits := by
  cases i with
  | subA1 | subsA1 => rfl
  | subT1 | subT2 | subsT2 | subT3 => cases h

theorem encode_T16 {i : Instr} {h : Half} (hl : i.len = 2) (hb : i.bits = 0#16 ++ h) : encode i = bytesOfHalf h := by
  have low : i.bits.extractLsb' 0 16 = h := hb ▸ BitVec.extractLsb'_append_eq_right
  cases i with
  | subT1 => rw [encode, low]
  | subA1 | subsA1 | subT2 | subsT2 | subT3 => cases hl

theorem encode_T32 {i : Instr} {hw1 hw2 : Half} (ht : i.isT32 = true) (hl : i.len = 4) (hb : i.bits = hw1 ++ hw2) :
    encode i = bytesOfHalf hw1 ++ bytesOfHalf hw2 := by
  have high : i.bits.extractLsb' 16 16 = hw1 := hb ▸ BitVec.extractLsb'_append_eq_left
  have low : i.bits.extractLsb' 0 16 = hw2 := hb ▸ BitVec.extractLsb'_append_eq_right
  cases i with
  | subT2 | subsT2 | subT3 => rw [encode, high, low]
  | subA1 | subsA1 => cases ht
  | subT1 => cases hl

theorem encode_length (i : Instr) : (encode i).length = i.len := by cases i <;> rfl

/-- R22: the first halfword of a T2 or T3 instruction announces a second one. -/
theorem isLongT32_longHw1 (ib : BitVec 1) (op : BitVec 10) : isLongT32 (longHw1 0b11110#5 ib op) = true := by
  rw [isLongT32, longHw1_top]
  rfl

/-- R22: a T1 halfword announces none. -/
theorem isLongT32_subT1 (imm7 : BitVec 7) : isLongT32 (0b101100001#9 ++ imm7) = false := by
  rw [isLongT32, BitVec.extractLsb'_append_eq_of_le (by decide)]
  rfl

/-- Settles O2: `encode` is the bytes of the word, halfword or pair, and each decoder's `_ok_iff` accepts it. -/
theorem decodeOfEncode : Obligations.DecodeOfEncode := by
  intro zb i rest hw
  have word (ht : i.isT32 = false) : decodeBytesWith zb false (encode i ++ rest) = .ok (i, rest) := by
    rw [encode_A32 ht, decodeBytesWith_word, decodeA32With_ok_iff.mpr ⟨ht, rfl, hw⟩]
    rfl
  have pair {ib op} {hw2 : Half} (ht : i.isT32 = true) (hl : i.len = 4) (hb : i.bits = longHw1 0b11110#5 ib op ++ hw2) :
      decodeBytesWith zb true (encode i ++ rest) = .ok (i, rest) := by
    rw [encode_T32 ht hl hb, decodeBytesWith_halves zb _ _ (isLongT32_longHw1 ib op),
      decodeT32With_ok_iff.mpr ⟨ht, hl, hb, hw⟩]
    rfl
  cases i with
  | subA1 | subsA1 => exact word rfl
  | subT1 imm7 =>
    rw [encode_T16 rfl (bits_subT1_eq imm7)]
    exact (decodeBytesWith_half zb rest (isLongT32_subT1 imm7)).trans (by rw [decodeT16_sub]; rfl)
  | subT2 => exact pair rfl rfl (bits_subT2_eq ..)
  | subsT2 => exact pair rfl rfl (bits_subsT2_eq ..)
  | subT3 => exact pair rfl rfl (bits_subT3_eq ..)

/-- Settles O3: the three shapes the decoder accepts, each through its decoder's `_ok_iff`. -/
theorem encodeOfDecode : Obligations.EncodeOfDecode := by
  intro zb t bytes i rest h
  obtain ⟨rfl, w, rfl, ok⟩ | ⟨rfl, hw, rfl, ok⟩ | ⟨rfl, hw1, hw2, rfl, ok⟩ := decodeBytesWith_cases h
  · obtain ⟨ht, rfl, hw⟩ := decodeA32With_ok_iff.mp ok
    exact ⟨by rw [encode_A32 ht], ht, hw⟩
  · obtain ⟨hl, hb⟩ := decodeT16_ok_iff.mp ok
    refine ⟨by rw [encode_T16 hl hb], ?_⟩
    cases i with
    | subT1 => exact ⟨rfl, rfl⟩
    | subA1 | subsA1 | subT2 | subsT2 | subT3 => cases hl
  · obtain ⟨ht, hl, hb, hw⟩ := decodeT32With_ok_iff.mp ok
    exact ⟨by rw [encode_T32 ht hl hb], ht, hw⟩

/-! ## What the decoder turns away (R40, R41) -/

/-- A term whose check fires with its own bits (R40). -/
theorem checkedWith_notInSpec {zb : Bool} {i : Instr} {w : Word}
    (h : encodingSpecificWith zb i = some (.notInSpec i.bits)) (hb : i.bits = w) :
    checkedWith zb i = .error (.notInSpec w) := by
  rw [checkedWith, h, hb]

/-- The zero-byte immediates are turned away where the switch is off (R65, D10). -/
theorem checkedWith_zeroByte {i : Instr} {ib imm3 rd imm8}
    (h : i = .subT2 ib imm3 rd imm8 ∨ i = .subsT2 ib imm3 rd imm8) (hrd : rd ≠ 0xF#4) (hz : isZeroByteForm ib imm3 imm8 = true) :
    checkedWith false i = .error (.unpredictable .t32ExpandImmZeroByte) := by
  rcases h with rfl | rfl <;> simp [checkedWith, encodingSpecificWith, hrd, hz]

/-- The class test of 95_test_vectors.md section 2.1 leaves the S bit open. -/
theorem a1Word_classMask (cond op rd imm12) (h : op = 0x24D#12 ∨ op = 0x25D#12) :
    a1Word cond op rd imm12 &&& 0x0FEF0000#32 = 0x024D0000#32 := by
  have mask : (0x0FEF0000#32 : Word) = 0#4 ++ 0xFEF#12 ++ 0#4 ++ 0#12 := rfl
  rw [a1Word, mask, BitVec.and_append, BitVec.and_append, BitVec.and_append, BitVec.and_zero, BitVec.and_zero,
    BitVec.and_zero]
  rcases h with rfl | rfl <;> rfl

/-- An A32 word outside class A1 (95_test_vectors.md section 2.1). -/
theorem decodeA32With_notInSpec (zb : Bool) {w : Word}
    (h : w &&& 0x0FEF0000#32 ≠ 0x024D0000#32 ∨ w.extractLsb' 28 4 = 0xF#4) :
    decodeA32With zb w = .error (.notInSpec w) := by
  obtain ⟨cond, op, rd, imm12, rfl⟩ := exists_a1Word w
  rw [a1Word_cond] at h
  have cond_of_row (row : op = 0x24D#12 ∨ op = 0x25D#12) : cond = 0xF#4 :=
    h.resolve_left (not_not_intro (a1Word_classMask cond op rd imm12 row))
  rw [decodeA32With_a1Word]
  split_ifs with sub subs
  · obtain rfl := cond_of_row (.inl sub)
    exact checkedWith_notInSpec rfl (sub ▸ bits_subA1_eq ..)
  · obtain rfl := cond_of_row (.inr subs)
    exact checkedWith_notInSpec rfl (subs ▸ bits_subsA1_eq ..)
  · rfl

/-- Settles O4: the A1 patterns by their `cond`; each T32 pattern is a row's, so `checkedWith` decides, by the row's own
check. -/
theorem decodeTurnsAway : Obligations.DecodeTurnsAway := by
  intro zb rd imm12 ib imm3 imm8
  refine ⟨decodeA32With_notInSpec zb (.inr (a1Word_cond 0xF rd 0x24D imm12)),
    decodeA32With_notInSpec zb (.inr (a1Word_cond 0xF rd 0x25D imm12)), decodeT32With_subT2 zb ib imm3 0xF imm8,
    ?subsT2, decodeT32With_subT3 zb ib imm3 0xF imm8, fun hrd hz => ⟨?_, ?_, ?_, ?_⟩⟩
  case subsT2 => exact (decodeT32With_subsT2 ..).trans (checkedWith_notInSpec rfl (bits_subsT2_eq ..))
  · exact (decodeT32With_subT2 ..).trans (checkedWith_zeroByte (.inl rfl) hrd hz)
  · exact (decodeT32With_subsT2 ..).trans (checkedWith_zeroByte (.inr rfl) hrd hz)
  · exact (decodeT32With_subT2 ..).trans (checkedWith_of_wfWith (by simp [Instr.wfWith, hrd]))
  · exact (decodeT32With_subsT2 ..).trans (checkedWith_of_wfWith (by simp [Instr.wfWith, hrd]))

/-- A T32 halfword outside class T1 (95_test_vectors.md section 2.2). -/
theorem decodeT16_notInSpec {h : Half} (hm : h &&& 0xFF80#16 ≠ 0xB080#16) :
    decodeT16 h = .error (.notInSpec (0#16 ++ h)) := by
  rw [decodeT16, if_neg hm, BitVec.setWidth_eq_append (by decide)]
  rfl

/-- A T32 pair outside classes T2 and T3 (95_test_vectors.md sections 2.3 and 2.4). -/
theorem decodeT32With_notInSpec (zb : Bool) {hw1 hw2 : Half}
    (h : (hw1 &&& 0xFBEF#16 ≠ 0xF1AD#16 ∧ hw1 &&& 0xFBFF#16 ≠ 0xF2AD#16) ∨ hw2.getLsbD 15 = true) :
    decodeT32With zb hw1 hw2 = .error (.notInSpec (hw1 ++ hw2)) := by
  obtain ⟨top, ib, op, rfl⟩ := exists_longHw1 hw1
  obtain ⟨top1, imm3, rd, imm8, rfl⟩ := exists_longHw2 hw2
  have outside {op' : BitVec 10} (hop : ∀ ib : BitVec 1, longHw1 0b11110#5 ib op' &&& 0xFBEF#16 = 0xF1AD#16
      ∨ longHw1 0b11110#5 ib op' &&& 0xFBFF#16 = 0xF2AD#16) : ¬(top = 0b11110#5 ∧ op = op' ∧ top1 = 0#1) := by
    rintro ⟨rfl, rfl, rfl⟩
    rcases h with ⟨h, h'⟩ | h
    · exact (hop ib).elim h h'
    · rw [longHw2, BitVec.getLsbD_append, BitVec.getLsbD_append, BitVec.getLsbD_append] at h
      simp at h
  rw [decodeT32With_longHw, if_neg (outside (by decide)), if_neg (outside (by decide)), if_neg (outside (by decide))]

theorem isLongT32_iff (h : Half) :
    isLongT32 h = true ↔ h.extractLsb' 11 5 ∈ [0b11101#5, 0b11110#5, 0b11111#5] := by
  simp [isLongT32, or_assoc]

/-- Settles O5: the bytes are those of a word, a halfword or a pair that its decoder turns away. -/
theorem otherBitsNotInSpec : Obligations.OtherBitsNotInSpec := by
  intro zb b0 b1 b2 b3 rest
  refine ⟨fun h => ?word, fun short h => ?half, fun long h => ?pair⟩
  case word =>
    have bytes := decodeBytesWith_word zb (wordOfBytes b0 b1 b2 b3) rest
    rwa [bytesOfWord_wordOfBytes, decodeA32With_notInSpec zb h] at bytes
  case half =>
    have bytes := decodeBytesWith_half zb (h := halfOfBytes b0 b1) rest
      (Bool.eq_false_iff.mpr fun long => short ((isLongT32_iff _).mp long))
    rwa [bytesOfHalf_halfOfBytes, decodeT16_notInSpec h] at bytes
  case pair =>
    have bytes := decodeBytesWith_halves zb (hw1 := halfOfBytes b0 b1) (halfOfBytes b2 b3) rest
      ((isLongT32_iff _).mpr long)
    rwa [bytesOfHalf_halfOfBytes, bytesOfHalf_halfOfBytes, decodeT32With_notInSpec zb h] at bytes

/-- Settles O1: the bytes are what the encoder writes for the instruction listed. -/
theorem decodesVectorWords : Obligations.DecodesVectorWords := by
  intro zb
  have zeroByteFree {i : Instr} (h : i.wfWith false = true) : i.wfWith zb = true := by
    cases zb
    · exact h
    · cases i <;> simp_all [Instr.wfWith]
  exact ⟨decodeOfEncode zb (.subA1 0xE 13 0x010) [] (zeroByteFree rfl),
    decodeOfEncode zb (.subsA1 0x1 2 0x102) [] (zeroByteFree rfl),
    decodeOfEncode zb (.subT1 0x7F) [] rfl,
    decodeOfEncode zb (.subT2 1 7 7 0xFF) [] (zeroByteFree rfl),
    decodeOfEncode zb (.subsT2 0 4 8 0xFF) [] (zeroByteFree rfl),
    decodeOfEncode zb (.subT3 1 7 13 0xFF) [] (zeroByteFree rfl)⟩

end Sys2Proof

namespace Sys2Proof.Machine

/-! ## The alignment of the pc (R24) -/

theorem getLsbD_zero_eq_false_iff (w : Word) : w.getLsbD 0 = false ↔ w.toNat % 2 = 0 := by
  rw [BitVec.getLsbD, Nat.testBit_zero, decide_eq_false_iff_not]
  omega

theorem getLsbD_one_eq_false_iff (w : Word) : w.getLsbD 1 = false ↔ w.toNat / 2 % 2 = 0 := by
  rw [BitVec.getLsbD, Nat.testBit_eq_decide_div_mod_eq, decide_eq_false_iff_not]
  omega

theorem extractLsb'_two_eq_zero_iff (w : Word) : w.extractLsb' 0 2 = 0#2 ↔ w.toNat % 4 = 0 := by
  rw [← BitVec.toNat_inj, BitVec.extractLsb'_toNat]
  rfl

theorem State.pcAligned_A32 {s : State} (ht : s.pstate.t = false) :
    s.pcAligned = true ↔ s.pc.extractLsb' 0 2 = 0#2 := by
  rw [State.pcAligned_iff, ht, extractLsb'_two_eq_zero_iff]
  rfl

theorem State.pcAligned_T32 {s : State} (ht : s.pstate.t = true) : s.pcAligned = true ↔ s.pc.getLsbD 0 = false := by
  rw [State.pcAligned_iff, ht, getLsbD_zero_eq_false_iff]
  rfl

/-! ## Fetch and step (R22 to R24, R84) -/

theorem fetch_illegal {s : State} (h : s.pstate.il = true) : fetch s = .fault (.illegalExecutionState s.pc) := by
  rw [fetch, if_pos h]

theorem fetch_misaligned {s : State} (hil : s.pstate.il = false) (h : ¬s.pcAligned = true) :
    fetch s = .fault (.pcMisaligned s.pc) := by
  simp only [fetch, hil, Bool.not_eq_true] at h ⊢
  simp [h]

section
variable {s : State} (hil : s.pstate.il = false) (hal : s.pcAligned = true)
include hil hal

theorem fetch_of_decode_ok {i : Instr} {rest : List Byte}
    (h : decodeBytes s.pstate.t (s.mem.window s.pc.toNat 4) = .ok (i, rest)) : fetch s = .next i := by
  simp [fetch, hil, hal, h]

theorem fetch_of_decode_error {r : Reject}
    (h : decodeBytes s.pstate.t (s.mem.window s.pc.toNat 4) = .error r) : fetch s = rejected r s.pc := by
  simp [fetch, hil, hal, h]

end

theorem step_of_fetch_next {s : State} {i : Instr} (h : fetch s = .next i) : step s = exec i s := by
  rw [step, h]

theorem step_of_fetch_fault {s : State} {r : Fault} (h : fetch s = .fault r) : step s = .fault r := by
  rw [step, h]

theorem step_of_fetch_refused {s : State} {r : Refusal} (h : fetch s = .refused r) : step s = .refused r := by
  rw [step, h]

/-- Settles O6. -/
theorem stepRunsDecodedInstruction : Obligations.StepRunsDecodedInstruction :=
  fun _ _ _ hil hal h => step_of_fetch_next (fetch_of_decode_ok hil hal h)

/-- Settles O7: `rejected` is the refusal of the decoder's answer. -/
theorem stepTurnsAway : Obligations.StepTurnsAway := by
  intro s r hil hal h
  have hf := fetch_of_decode_error hil hal h
  refine ⟨?_, ?_⟩
  · rintro bits rfl
    exact step_of_fetch_refused hf
  · rintro u rfl
    exact step_of_fetch_refused hf

/-- Settles O9. -/
theorem illegalExecutionStateStops : Obligations.IllegalExecutionStateStops :=
  fun _ h => step_of_fetch_fault (fetch_illegal h)

/-! ## Absent text (R24, D7) -/

/-- A window ends at the first absent byte. -/
theorem Memory.window_length_le {m : Memory} {addr n k : Nat} (hk : k < n) (h : m.read (addr + k) = none) :
    (m.window addr n).length ≤ k := by
  induction n generalizing addr k with
  | zero => omega
  | succ n ih =>
    rw [Memory.window]
    cases k with
    | zero =>
      rw [Nat.add_zero] at h
      simp [h]
    | succ k =>
      split
      · simp
      · have := ih (addr := addr + 1) (k := k) (by omega) (by rwa [Nat.add_assoc, Nat.add_comm 1 k])
        simpa using this

/-- Bytes that end before the instruction does stop a step for want of text. -/
theorem step_noText {s : State} (hil : s.pstate.il = false) (hal : s.pcAligned = true)
    (h : decodeBytes s.pstate.t (s.mem.window s.pc.toNat 4) = .error .truncated) : step s = .fault (.noText s.pc) :=
  step_of_fetch_fault (fetch_of_decode_error hil hal h)

theorem step_noText_A32 {s : State} (hil : s.pstate.il = false) (hal : s.pcAligned = true) (ht : s.pstate.t = false)
    {k : Nat} (hk : k < 4) (h : s.mem.read (s.pc.toNat + k) = none) : step s = .fault (.noText s.pc) := by
  apply step_noText hil hal
  rw [ht]
  have := Memory.window_length_le hk h
  exact decodeBytesWith_short_word _ (by omega)

theorem step_noText_T32 {s : State} (hil : s.pstate.il = false) (hal : s.pcAligned = true) (ht : s.pstate.t = true)
    {k : Nat} (hk : k < 2) (h : s.mem.read (s.pc.toNat + k) = none) : step s = .fault (.noText s.pc) := by
  apply step_noText hil hal
  rw [ht]
  have := Memory.window_length_le (n := 4) (by omega) h
  exact decodeBytesWith_short_half _ (by omega)

theorem step_noText_long {s : State} (hil : s.pstate.il = false) (hal : s.pcAligned = true) (ht : s.pstate.t = true)
    {b0 b1 : Byte} (h0 : s.mem.read s.pc.toNat = some b0) (h1 : s.mem.read (s.pc.toNat + 1) = some b1)
    (long : isLongT32 (halfOfBytes b0 b1) = true) {k : Nat} (hk : k < 4) (h : s.mem.read (s.pc.toNat + k) = none) :
    step s = .fault (.noText s.pc) := by
  apply step_noText hil hal
  have hw : s.mem.window s.pc.toNat 4 = bytesOfHalf (halfOfBytes b0 b1) ++ s.mem.window (s.pc.toNat + 2) 2 := by
    simp only [Memory.window, h0, h1, bytesOfHalf_halfOfBytes]
    rfl
  have hl := Memory.window_length_le hk h
  rw [hw, List.length_append] at hl
  rw [hw, ht]
  have two : (bytesOfHalf (halfOfBytes b0 b1)).length = 2 := rfl
  exact decodeBytesWith_short_halves _ long (by omega)

/-- Settles O8: the misaligned pc by `fetch_misaligned`, each absent byte by the window that ends at it. -/
theorem fetchStuck : Obligations.FetchStuck := by
  intro s hil
  refine ⟨fun ht hal => ?misalignedA32, fun ht hal => ?misalignedT32,
    fun ht hal ⟨k, hk, h⟩ => step_noText_A32 hil ((State.pcAligned_A32 ht).mpr hal) ht hk h,
    fun ht hal ⟨k, hk, h⟩ => step_noText_T32 hil ((State.pcAligned_T32 ht).mpr hal) ht hk h,
    fun b0 b1 ht hal h0 h1 long ⟨k, hk, h⟩ =>
      step_noText_long hil ((State.pcAligned_T32 ht).mpr hal) ht h0 h1 long hk h⟩
  case misalignedA32 => exact step_of_fetch_fault (fetch_misaligned hil (mt (State.pcAligned_A32 ht).mp hal))
  case misalignedT32 =>
    exact step_of_fetch_fault (fetch_misaligned hil (mt (State.pcAligned_T32 ht).mp (by simp [hal])))

/-! ## A placed instruction (R22, R23) -/

theorem len_le_four (i : Instr) : i.len ≤ 4 := by cases i <;> simp [Instr.len]

/-- The bytes of a placed instruction, and what follows them. -/
theorem window_place (s : State) (t : Bool) (i : Instr) (h : s.pc.toNat + i.len ≤ 2 ^ 32) :
    ∃ rest, (s.place t (encode i)).mem.window s.pc.toNat 4 = encode i ++ rest := by
  have placed : (s.place t (encode i)).mem.window s.pc.toNat i.len = encode i := by
    rw [← encode_length] at h ⊢
    exact Memory.window_load _ _ _ h
  obtain ⟨k, hk⟩ := Nat.exists_eq_add_of_le (len_le_four i)
  exact ⟨_, hk ▸ Memory.window_prefix _ _ _ k _ (encode_length i) placed⟩

/-- Settles O10: the placed bytes are what the window holds first, and they decode by `decodeOfEncode`. -/
theorem placedInstructionIsFetched : Obligations.PlacedInstructionIsFetched := by
  intro s i hw hil hroom hal
  obtain ⟨rest, hwin⟩ := window_place s i.isT32 i hroom
  have aligned : (s.place i.isT32 (encode i)).pcAligned = true := by
    cases ht : i.isT32 <;> rw [ht] at hal
    · exact (State.pcAligned_A32 rfl).mpr hal
    · exact (State.pcAligned_T32 rfl).mpr hal
  refine fetch_of_decode_ok (s := s.place i.isT32 (encode i)) (rest := rest) hil aligned ?_
  exact (congrArg (decodeBytes i.isT32) hwin).trans (decodeOfEncode _ i rest hw)

/-! ## The launch (R90) -/

/-- R90, with the alignments as numbers. -/
theorem State.launchOk_iff (s : State) : s.LaunchOk ↔
    (s.pstate.t = false → s.pc.toNat % 4 = 0 ∧ s.pstate.it = 0)
      ∧ (s.pstate.t = true → s.pc.toNat % 2 = 0
        ∧ (s.pstate.it.extractLsb' 0 4 = 0#4 ∨ s.pstate.it.extractLsb' 4 4 ≠ 0xF#4))
      ∧ (s.pstate.m = .hyp → Config.hasHyp = true) := by
  rw [State.LaunchOk, extractLsb'_two_eq_zero_iff, getLsbD_zero_eq_false_iff, not_and_or, not_not]

theorem launch_of_ok {s : State} (h : s.LaunchOk) : launch s = .next s := if_pos h

theorem launch_of_not_ok {s : State} (h : ¬s.LaunchOk) : launch s = .refused .launchNotAllowed := if_neg h

theorem runFrom_of_ok {e : EndPoint} {k : Nat} {s : State} (h : s.LaunchOk) : runFrom e k s = runTo e k s := by
  rw [runFrom, launch_of_ok h]

theorem runFrom_of_not_ok {e : EndPoint} {k : Nat} {s : State} (h : ¬s.LaunchOk) :
    runFrom e k s = .refused .launchNotAllowed := by
  rw [runFrom, launch_of_not_ok h]

/-- Settles O37: the constraints are `State.launchOk_iff`'s, and the broken ones their negation. -/
theorem launchIsChecked : Obligations.LaunchIsChecked := by
  intro e k s
  refine ⟨fun broken => ?_, fun ha ht hm => ?_⟩
  · have hn : ¬s.LaunchOk := by
      rw [State.launchOk_iff]
      rintro ⟨ha, ht, hm⟩
      rcases broken with ⟨t, hp | hi⟩ | ⟨t, hp | ⟨hi, hf⟩⟩ | ⟨m, hn⟩
      · exact hp (ha t).1
      · exact hi (ha t).2
      · exact hp (ht t).1
      · exact (ht t).2.elim hi (absurd hf)
      · rw [hm m] at hn
        cases hn
    exact ⟨launch_of_not_ok hn, runFrom_of_not_ok hn⟩
  · have ok : s.LaunchOk := (State.launchOk_iff s).mpr ⟨ha, ht, fun m => hm.resolve_left (not_not_intro m)⟩
    exact ⟨launch_of_ok ok, runFrom_of_ok ok⟩

end Sys2Proof.Machine

namespace Sys2Proof

/-- A concatenation as a number. -/
theorem toNat_append_eq {m n : Nat} (x : BitVec m) (y : BitVec n) : (x ++ y).toNat = x.toNat * 2 ^ n + y.toNat := by
  rw [BitVec.toNat_append, ← Nat.shiftLeft_add_eq_or_of_lt y.isLt, Nat.shiftLeft_eq]

theorem toNat_replaceLow1 (w : Word) (b : BitVec 1) : (w.extractLsb' 1 31 ++ b).toNat = w.toNat / 2 * 2 + b.toNat := by
  have := w.isLt
  rw [toNat_append_eq, BitVec.extractLsb'_toNat, Nat.shiftRight_eq_div_pow]
  omega

theorem toNat_replaceLow2 (w : Word) (b : BitVec 2) : (w.extractLsb' 2 30 ++ b).toNat = w.toNat / 4 * 4 + b.toNat := by
  have := w.isLt
  rw [toNat_append_eq, BitVec.extractLsb'_toNat, Nat.shiftRight_eq_div_pow]
  omega

/-- R68: bit 0 of an address cleared. -/
theorem alignDown2_eq (w : Word) : w.extractLsb' 1 31 ++ 0#1 = w - BitVec.ofNat 32 (w.toNat % 2) := by
  apply BitVec.eq_of_toNat_eq
  rw [toNat_replaceLow1]
  simp only [BitVec.toNat_sub, BitVec.toNat_ofNat]
  have := w.isLt
  omega

/-- R68: bits 1:0 of an address cleared. -/
theorem alignDown4_eq (w : Word) : w.extractLsb' 2 30 ++ 0#2 = w - BitVec.ofNat 32 (w.toNat % 4) := by
  apply BitVec.eq_of_toNat_eq
  rw [toNat_replaceLow2]
  simp only [BitVec.toNat_sub, BitVec.toNat_ofNat]
  have := w.isLt
  omega

end Sys2Proof

namespace Sys2Proof.Machine

/-! ## The T2 immediate (R65) -/

/-- The two selectors of a replicated form. -/
theorem t32Imm_selectors {imm12 : BitVec 12} {n : Nat} (h : (imm12.extractLsb' 8 4).toNat = n) (hn : n < 4) :
    imm12.extractLsb' 10 2 = 0#2 ∧ imm12.extractLsb' 8 2 = BitVec.ofNat 2 n := by
  have := imm12.isLt
  constructor <;> apply BitVec.eq_of_toNat_eq <;>
    simp only [BitVec.extractLsb'_toNat, Nat.shiftRight_eq_div_pow, BitVec.toNat_ofNat] at h ⊢ <;> omega

/-- R65: the amount of a rotated form is at least 8. -/
theorem t32Imm_amount {imm12 : BitVec 12} (h : 4 ≤ (imm12.extractLsb' 8 4).toNat) :
    8 ≤ (imm12.extractLsb' 7 5).toNat := by
  simp only [BitVec.extractLsb'_toNat, Nat.shiftRight_eq_div_pow] at h ⊢
  omega

/-- R65: an immediate that is no replicated form is a rotated one. -/
theorem t32ExpandImm_rotated {imm12 : BitVec 12} (h : 4 ≤ (imm12.extractLsb' 8 4).toNat) :
    t32ExpandImm imm12 =
      ror ((0b1#1 ++ (imm12.extractLsb' 0 7 : BitVec 7)).setWidth 32) (imm12.extractLsb' 7 5).toNat := by
  refine if_neg fun h0 => ?_
  have := congrArg BitVec.toNat h0
  simp only [BitVec.extractLsb'_toNat, Nat.shiftRight_eq_div_pow, BitVec.toNat_ofNat] at h this
  omega

/-- R65: the form that repeats the byte in all four places. -/
theorem t32ExpandImm_allBytes {imm12 : BitVec 12} (h : (imm12.extractLsb' 8 4).toNat = 3) :
    t32ExpandImm imm12 =
      imm12.extractLsb' 0 8 ++ imm12.extractLsb' 0 8 ++ imm12.extractLsb' 0 8 ++ imm12.extractLsb' 0 8 := by
  obtain ⟨replicated, form⟩ := t32Imm_selectors h (by decide)
  rw [t32ExpandImm, if_pos replicated, form]
  rfl

/-- Settles O13: the replicated forms by their selectors, the rotated ones by `ror_getLsbD`. -/
theorem t32ImmediateForms : Obligations.T32ImmediateForms := by
  intro imm12
  refine ⟨?zero, ?one, ?two, ?three, fun h => ⟨t32Imm_amount h, fun j hj => ?_⟩⟩
  case zero | one | two =>
    intro h
    obtain ⟨replicated, form⟩ := t32Imm_selectors h (by decide)
    simp only [t32ExpandImm, replicated, form, if_true, toNat_append_eq, BitVec.toNat_ofNat]
    omega
  case three =>
    intro h
    simp only [t32ExpandImm_allBytes h, toNat_append_eq]
    omega
  · rw [t32ExpandImm_rotated h, ror_getLsbD _ (imm12.extractLsb' 7 5).isLt hj, BitVec.getLsbD_setWidth,
      decide_eq_true (Nat.mod_lt _ (by decide)), Bool.true_and]

/-! ## The condition (R66) and the mode encodings (R17) -/

theorem currentCondT32_of_block {p : PState} (h : p.it.extractLsb' 0 4 ≠ 0#4) (h' : p.it.extractLsb' 4 4 ≠ 0xF#4) :
    currentCondT32 p = .ok (p.it.extractLsb' 4 4) := by
  rw [currentCondT32, if_pos h, if_neg h']

theorem currentCondT32_of_zero {p : PState} (h : p.it = 0) : currentCondT32 p = .ok 0xE := by
  rw [currentCondT32, if_neg (by rw [h]; decide), if_pos h]
  rfl

/-- R66, D17: the two inconsistent shapes of IT in T32 state. -/
theorem currentCondT32_inconsistent {p : PState}
    (h : (p.it.extractLsb' 0 4 ≠ 0#4 ∧ p.it.extractLsb' 4 4 = 0xF#4) ∨ (p.it.extractLsb' 0 4 = 0#4 ∧ p.it ≠ 0)) :
    currentCondT32 p = .error .itStateInconsistent := by
  rw [currentCondT32]
  rcases h with ⟨h, h'⟩ | ⟨h, h'⟩
  · rw [if_pos h, if_pos h']
  · rw [if_neg (not_not_intro h), if_neg h']

/-- Settles O14: an even `cond` reads off the table, an odd one negates it; then the condition from IT. -/
theorem conditionTable : Obligations.ConditionTable := by
  intro p
  refine ⟨rfl, rfl, rfl, rfl, rfl, rfl, rfl, rfl, rfl, ?ls, rfl, rfl, ?gt, ?le, rfl, rfl, currentCondT32_of_block,
    fun h => ⟨currentCondT32_of_zero h, fun _ => currentCondA32_of_it h⟩⟩
  case ls => exact (Bool.not_and ..).trans (congrArg _ (Bool.not_not _))
  case gt => exact Bool.and_comm ..
  case le => exact (Bool.not_and ..).trans ((Bool.or_comm ..).trans (congrArg (· || _) (Bool.not_not _)))

/-- Settles O16. -/
theorem modeEncodings : Obligations.ModeEncodings :=
  ⟨rfl, rfl, rfl, rfl, rfl, rfl, rfl, rfl, rfl, by decide⟩

/-- Settles O25: each field is its SPSR bit; IT is two of them side by side. -/
theorem restoredFields : Obligations.RestoredFields :=
  fun _ _ => ⟨rfl, toNat_append_eq .., rfl, rfl, rfl, rfl⟩

/-- Settles O30. -/
theorem parameterTable : Obligations.ParameterTable := ⟨rfl, rfl⟩

/-! ## The IT state (R66, R70) -/

theorem currentCond_T32 {i : Instr} (p : PState) (ht : i.isT32 = true) : currentCond i p = currentCondT32 p := by
  cases i with
  | subA1 | subsA1 => cases ht
  | subT1 | subT2 | subsT2 | subT3 => rfl

/-- R70, D17: an A1 instruction with IT not 0 has no condition. -/
theorem currentCond_A32_inconsistent {i : Instr} {p : PState} (ht : i.isT32 = false) (hit : p.it ≠ 0) :
    currentCond i p = .error .itStateInconsistent := by
  cases i with
  | subA1 | subsA1 => exact if_neg hit
  | subT1 | subT2 | subsT2 | subT3 => cases ht

/-- An instruction without a condition is refused before it does anything (R84). -/
theorem exec_of_cond_error {i : Instr} {s : State} {u : Unpredictable} (hw : i.wf = true)
    (hc : currentCond i s.pstate = .error u) : exec i s = .refused (.unpredictable u) := by
  rw [exec_eq s hw, hc]
  rfl

/-- Settles O32. -/
theorem inconsistentItRefused : Obligations.InconsistentItRefused :=
  fun _ s ht hw h => exec_of_cond_error hw ((currentCond_T32 s.pstate ht).trans (currentCondT32_inconsistent h))

theorem itAdvance_of_ne {it : BitVec 8} (h : it.extractLsb' 0 3 ≠ 0#3) :
    itAdvance it = it.extractLsb' 5 3 ++ (it.extractLsb' 0 5 : BitVec 5) <<< 1 := if_neg h

theorem endPState_T32 {i : Instr} (p : PState) (ht : i.isT32 = true) : endPState i p = p.advanceIt := if_pos ht

theorem endPState_A32 {i : Instr} (p : PState) (ht : i.isT32 = false) : endPState i p = p := by
  rw [endPState, ht]
  rfl

/-- Settles O15: IT after a T32 instruction by `exec_inv`, whose other ends are A1's. -/
theorem itStateAdvances : Obligations.ItStateAdvances := by
  refine ⟨fun it h => if_pos h, fun it h => ⟨?_, ?_⟩, fun i s t ht h => ?_,
    fun i s ht hw hit => exec_of_cond_error hw (currentCond_A32_inconsistent ht hit),
    fun s ht hit ok => hit (ok.1 ht).2⟩
  · rw [itAdvance_of_ne h, BitVec.extractLsb'_append_eq_left]
  · rw [itAdvance_of_ne h, BitVec.extractLsb'_append_eq_right, BitVec.toNat_shiftLeft, Nat.shiftLeft_eq]
  · obtain ⟨-, c, -, ⟨-, -, rfl⟩ | ⟨-, d, -, -, rfl⟩ | ⟨-, ⟨_, _, rfl⟩, -⟩ | ⟨-, ⟨_, _, rfl⟩, -⟩⟩ := exec_inv h
    · rw [endPState_T32 _ ht]
      rfl
    · rw [endPState_T32 _ ht]
      split <;> rfl
    · cases ht
    · cases ht

/-! ## The T2 and T3 forms (R54 to R56) -/

theorem subResult_eq_ofNat (i : Instr) (s : State) :
    subResult i s = BitVec.ofNat 32 (2 ^ 32 + (s.readReg 13).toNat - (operandsOf i).imm32.toNat) := sub_eq_ofNat ..

theorem wfWith_T2 {zb : Bool} {i : Instr} {ib imm3 rd imm8}
    (h : i = .subT2 ib imm3 rd imm8 ∨ i = .subsT2 ib imm3 rd imm8) (hz : zb = true) (hrd : rd ≠ 0xF#4) : i.wfWith zb = true := by
  rcases h with rfl | rfl <;> simp [Instr.wfWith, hz, hrd]

/-- R39: the T3 immediate is its three boxes side by side. -/
theorem operandsT3_imm32 (ib : BitVec 1) (imm3 : BitVec 3) (rd : BitVec 4) (imm8 : BitVec 8) :
    (operandsT3 ib imm3 rd imm8).imm32.toNat = ib.toNat * 2048 + imm3.toNat * 256 + imm8.toNat := by
  have := ib.isLt
  have := imm3.isLt
  have := imm8.isLt
  simp only [operandsT3, BitVec.toNat_setWidth, toNat_append_eq]
  omega

/-- Settles O20: the decoder on the T2 pair, then `exec_reg` with the condition IT gives. -/
theorem subT2Result : Obligations.SubT2Result := by
  intro ib imm3 rd imm8
  refine ⟨fun hrd => ?_, fun hrd => ?_⟩
  · subst hrd
    exact ⟨fun zb => decodeT32With_subT2 zb ib imm3 0xF imm8, fun s => rfl⟩
  · have hw : (Instr.subT2 ib imm3 rd imm8).wf = true := wfWith_T2 (.inl rfl) rfl hrd
    refine ⟨(decodeT32With_subT2 ..).trans (checkedWith_of_wfWith hw), fun s cond hc hpc => ?_⟩
    rw [exec_reg hw hc (if_neg hrd) hpc, regEffect, subResult_eq_ofNat]
    split <;> rfl

/-- Settles O21: as O20, with the flags. -/
theorem subsT2Result : Obligations.SubsT2Result := by
  intro ib imm3 rd imm8
  refine ⟨fun hrd zb => ?_, fun hrd => ?_⟩
  · subst hrd
    exact (decodeT32With_subsT2 ..).trans (checkedWith_notInSpec rfl (bits_subsT2_eq ..))
  · have hw : (Instr.subsT2 ib imm3 rd imm8).wf = true := wfWith_T2 (.inr rfl) rfl hrd
    refine ⟨(decodeT32With_subsT2 ..).trans (checkedWith_of_wfWith hw), fun s cond hc hpc => ?_⟩
    rw [exec_reg hw hc (if_neg hrd) hpc, regEffect]
    split <;> rfl

/-- Settles O22: as O20, with the plain immediate. -/
theorem subT3Result : Obligations.SubT3Result := by
  intro ib imm3 rd imm8
  refine ⟨fun hrd => ?_, fun hrd => ?_⟩
  · subst hrd
    exact ⟨fun zb => decodeT32With_subT3 zb ib imm3 0xF imm8, fun s => rfl⟩
  · have hw (zb : Bool) : (Instr.subT3 ib imm3 rd imm8).wfWith zb = true := bne_iff_ne.mpr hrd
    refine ⟨fun zb => (decodeT32With_subT3 ..).trans (checkedWith_of_wfWith (hw zb)), fun s cond hc hpc => ?_⟩
    have result := subResult_eq_ofNat (.subT3 ib imm3 rd imm8) s
    rw [operandsOf, operandsT3_imm32] at result
    rw [exec_reg (hw _) hc (if_neg hrd) hpc, regEffect, result]
    split <;> rfl

/-! ## The end of the address space (R14, R84) -/

/-- An instruction that would end in an advance is refused where the advance is. -/
theorem exec_of_wrap {i : Instr} {s : State} {c : BitVec 4} (hw : i.wf = true) (hc : currentCond i s.pstate = .ok c)
    (hpc : 2 ^ 32 ≤ s.pc.toNat + i.len) (h : destination i ≠ none ∨ conditionHolds c s.pstate = false) :
    exec i s = .refused .pcWrap := by
  rw [exec_of_cond hw hc]
  split
  · rename_i holds
    obtain ⟨d, hd⟩ := Option.ne_none_iff_exists'.mp (h.resolve_right (by rw [holds]; decide))
    obtain ⟨ed, hlt⟩ := operandsOf_d hd
    rw [subSp_reg _ _ (by omega)]
    split <;> exact advanceOf_of_wrap hpc
  · exact advanceOf_of_wrap hpc

/-- The well-formed T32 instructions all have a register destination (R12, R15). -/
theorem destination_T32 {i : Instr} (hw : i.wf = true) (ht : i.isT32 = true) : destination i ≠ none := by
  intro h
  rcases destination_none hw h with ⟨_, _, rfl⟩ | ⟨_, _, rfl⟩ <;> cases ht

/-- IT = 0 gives an A1 instruction its condition (R66). -/
theorem currentCond_A32_of_it {i : Instr} {p : PState} (ht : i.isT32 = false) (hit : p.it = 0) :
    ∃ c, currentCond i p = .ok c := by
  cases i with
  | subA1 | subsA1 => exact ⟨_, currentCondA32_of_it hit⟩
  | subT1 | subT2 | subsT2 | subT3 => cases ht

/-- Settles O31: each clause gives `exec_of_wrap` its condition. -/
theorem pcWrapRefused : Obligations.PcWrapRefused := by
  intro i s hw hpc
  refine ⟨fun ht ⟨cond, hc⟩ => ?_, fun ht hit hd => ?_, fun cond imm12 hi hit hf => ?_⟩
  · exact exec_of_wrap hw ((currentCond_T32 _ ht).trans hc) hpc (.inl (destination_T32 hw ht))
  · obtain ⟨c, hc⟩ := currentCond_A32_of_it ht hit
    exact exec_of_wrap hw hc hpc (.inl hd)
  · rcases hi with rfl | rfl <;> exact exec_of_wrap hw (currentCondA32_of_it hit) hpc (.inr hf)

end Sys2Proof.Machine

namespace Sys2Proof.Machine

/-! ## The A1 forms with `Rd` 1111 (R57, R58) -/

theorem PState.with_t_eq {p : PState} {b : Bool} (h : p.t = b) : { p with t := b } = p := by
  subst h
  rfl

section
variable {p : Config.Params} {address : Word} (s : State)

theorem bxWritePC_odd (h : address.getLsbD 0 = true) : bxWritePC p address s =
    .next ((s.setPState { s.pstate with t := true }).setPc (address.extractLsb' 1 31 ++ 0b0#1)) := if_pos h

theorem bxWritePC_aligned (h : address.toNat % 4 = 0) : bxWritePC p address s =
    .next ((s.setPState { s.pstate with t := false }).setPc address) := by
  have h0 : address.getLsbD 0 = false := (getLsbD_zero_eq_false_iff _).mpr (by omega)
  have h1 : address.getLsbD 1 = false := (getLsbD_one_eq_false_iff _).mpr (by omega)
  simp only [bxWritePC, h0, h1, Bool.false_eq_true, if_false]

theorem bxWritePC_misaligned (h : address.toNat % 4 = 2) : bxWritePC p address s =
    if p.permitMisalignedTarget then
      .next ((s.setPState { s.pstate with t := false }).setPc
        (address.extractLsb' 2 30 ++ Config.freeTargetBit s.freeCount ++ 0b0#1)).useFree
    else .refused (.unpredictable .a32BranchTargetMisaligned) := by
  have h0 : address.getLsbD 0 = false := (getLsbD_zero_eq_false_iff _).mpr (by omega)
  have h1 : address.getLsbD 1 = true := by
    rw [← Bool.not_eq_false, getLsbD_one_eq_false_iff]
    omega
  simp only [bxWritePC, h0, h1, Bool.false_eq_true, if_false, if_true]

end

theorem aluWritePC_A32 {p : Config.Params} {address : Word} {s : State} (ht : s.pstate.t = false) :
    aluWritePC p address s = bxWritePC p address s := by
  rw [aluWritePC, ht]
  rfl

section
variable {p : Config.Params} {address : Word} {s : State}

theorem aluExceptionReturn_hyp (hm : s.pstate.m = .hyp) :
    aluExceptionReturn p address s = .fault (.undefined s.pc) := if_pos hm

theorem aluExceptionReturn_spsr {w : Word} (hm : s.pstate.m ≠ .hyp) (hs : s.spsr.get s.pstate.m = some w) :
    aluExceptionReturn p address s =
      if p.exceptionReturn then .next (exceptionReturn address w s) else .refused .exceptionReturnAbsent := by
  simp only [aluExceptionReturn, if_neg hm, hs]

theorem aluExceptionReturn_userSystem (hm : s.pstate.m = .user ∨ s.pstate.m = .system)
    (hp : p.permitUserSystemReturn = false) :
    aluExceptionReturn p address s = .refused (.unpredictable .aluExcretUserSystem) := by
  have hyp : s.pstate.m ≠ .hyp := by rcases hm with h | h <;> simp [h]
  simp only [aluExceptionReturn, if_neg hyp, (SpsrBanks.get_none_iff ..).mpr hm, hp, Bool.false_eq_true, if_false]

/-- The two behaviours R69 names, where the parameters take one of them (log entry 12). -/
theorem aluExceptionReturn_permitted (hm : s.pstate.m = .user ∨ s.pstate.m = .system)
    (hp : p.permitUserSystemReturn = true) :
    aluExceptionReturn p address s = .fault (.undefined s.pc)
      ∨ aluExceptionReturn p address s = advance 4 s.useFree := by
  have hyp : s.pstate.m ≠ .hyp := by rcases hm with h | h <;> simp [h]
  simp only [aluExceptionReturn, if_neg hyp, (SpsrBanks.get_none_iff ..).mpr hm, hp, if_true]
  split
  · exact .inl rfl
  · exact .inr rfl

end

/-- Execute of an A1 form with `Rd` 1111, its condition passed, under any parameters. -/
theorem executeA32_pc (p : Config.Params) {cond : BitVec 4} (setflags : Bool) (imm12 : BitVec 12) {s : State}
    (hit : s.pstate.it = 0) (hc : conditionHolds cond s.pstate = true) :
    executeA32 p cond (operandsA1 setflags 0xF imm12) s =
      if setflags then aluExceptionReturn p (s.readReg 13 - a32ExpandImm imm12) s
      else aluWritePC p (s.readReg 13 - a32ExpandImm imm12) s := by
  rw [executeA32_eq hit, if_pos hc, subSp_pc _ _ _ _ rfl]
  rfl

/-- A form with `Rd` 1111, its condition passed (R50). -/
theorem exec_pc {i : Instr} {s : State} {c : BitVec 4} (hw : i.wf = true) (hc : currentCond i s.pstate = .ok c)
    (hp : conditionHolds c s.pstate = true) (hd : (operandsOf i).d = 15) :
    exec i s = if (operandsOf i).setflags then aluExceptionReturn Config.params (subResult i s) s
      else aluWritePC Config.params (subResult i s) s := by
  rw [exec_of_cond hw hc, if_pos hp, subSp_pc _ _ _ _ hd]
  rfl

/-- An instruction whose condition fails only advances (R59). -/
theorem exec_skipped {i : Instr} {s : State} {c : BitVec 4} (hw : i.wf = true) (hc : currentCond i s.pstate = .ok c)
    (hf : conditionHolds c s.pstate = false) : exec i s = advanceOf i s := by
  rw [exec_of_cond hw hc, hf]
  rfl

section
variable {cond : BitVec 4} (imm12 : BitVec 12) {s : State} (hcond : cond ≠ 0xF#4) (hit : s.pstate.it = 0)
include hcond hit

theorem exec_subPc (hc : conditionHolds cond s.pstate = true) :
    exec (.subA1 cond 0xF imm12) s = aluWritePC Config.params (s.readReg 13 - a32ExpandImm imm12) s :=
  exec_pc (i := .subA1 cond 0xF imm12) (bne_iff_ne.mpr hcond) (currentCondA32_of_it hit) hc rfl

theorem exec_subsPc (hc : conditionHolds cond s.pstate = true) :
    exec (.subsA1 cond 0xF imm12) s = aluExceptionReturn Config.params (s.readReg 13 - a32ExpandImm imm12) s :=
  exec_pc (i := .subsA1 cond 0xF imm12) (bne_iff_ne.mpr hcond) (currentCondA32_of_it hit) hc rfl

theorem exec_subPc_skipped (hc : conditionHolds cond s.pstate = false) (hpc : s.pc.toNat + 4 < 2 ^ 32) :
    exec (.subA1 cond 0xF imm12) s = .next (s.setPc (s.pc + 4)) :=
  (exec_skipped (i := .subA1 cond 0xF imm12) (bne_iff_ne.mpr hcond) (currentCondA32_of_it hit) hc).trans
    (advance_of_lt hpc)

theorem exec_subsPc_skipped (hc : conditionHolds cond s.pstate = false) (hpc : s.pc.toNat + 4 < 2 ^ 32) :
    exec (.subsA1 cond 0xF imm12) s = .next (s.setPc (s.pc + 4)) :=
  (exec_skipped (i := .subsA1 cond 0xF imm12) (bne_iff_ne.mpr hcond) (currentCondA32_of_it hit) hc).trans
    (advance_of_lt hpc)

end

/-- Settles O23: the three kinds of target of `BXWritePC`. -/
theorem subPcBranches : Obligations.SubPcBranches := by
  intro cond imm12 s hcond ht hit r
  refine ⟨fun hc => ?_, exec_subPc_skipped imm12 hcond hit⟩
  have branch : exec (.subA1 cond 0xF imm12) s = bxWritePC Config.params r s :=
    (exec_subPc imm12 hcond hit hc).trans (aluWritePC_A32 ht)
  rw [branch]
  refine ⟨fun odd => ?_, fun aligned => ?_, fun misaligned => bxWritePC_misaligned s misaligned⟩
  · have target : BitVec.ofNat 32 (r.toNat / 2 * 2) = r.extractLsb' 1 31 ++ 0#1 := by
      have := r.isLt
      apply BitVec.eq_of_toNat_eq
      rw [toNat_replaceLow1, BitVec.toNat_ofNat]
      exact Nat.mod_eq_of_lt (by omega)
    rw [bxWritePC_odd s odd, target]
  · rw [bxWritePC_aligned s aligned, PState.with_t_eq ht]
    rfl

/-- Settles O27: UNDEFINED is a fault; a failed condition never reaches it. -/
theorem subsPcUndefinedInHyp : Obligations.SubsPcUndefinedInHyp :=
  fun _ imm12 _ hcond hit hm =>
    ⟨fun hc => (exec_subsPc imm12 hcond hit hc).trans (aluExceptionReturn_hyp hm),
      exec_subsPc_skipped imm12 hcond hit⟩

/-- Settles O28: the refusal of D9; a failed condition never reaches it. -/
theorem subsPcInUserOrSystem : Obligations.SubsPcInUserOrSystem :=
  fun _ imm12 _ hcond hit =>
    ⟨fun hc hm => (exec_subsPc imm12 hcond hit hc).trans (aluExceptionReturn_userSystem hm rfl),
      exec_subsPc_skipped imm12 hcond hit⟩

/-- R68: an A32 target with bits 1:0 equal to 10, its bit 1 left or forced to 0 (log entry 13). -/
theorem misalignedTarget_eq {r : Word} (b : BitVec 1) (h : r.toNat % 4 = 2) :
    r.extractLsb' 2 30 ++ b ++ 0#1 = r ∨ r.extractLsb' 2 30 ++ b ++ 0#1 = r - 2 := by
  have value : (r.extractLsb' 2 30 ++ b ++ 0#1).toNat = r.toNat / 4 * 4 + 2 * b.toNat := by
    have := r.isLt
    rw [toNat_append_eq, toNat_append_eq, BitVec.extractLsb'_toNat, Nat.shiftRight_eq_div_pow, BitVec.toNat_ofNat]
    omega
  obtain left | forced : b.toNat = 1 ∨ b.toNat = 0 := by omega
  · left
    apply BitVec.eq_of_toNat_eq
    omega
  · right
    apply BitVec.eq_of_toNat_eq
    rw [value, BitVec.toNat_sub]
    change _ = (2 ^ 32 - 2 + r.toNat) % 2 ^ 32
    omega

/-- Settles O29: each parameter is read in one place, whose two settings are the lemmas above. -/
theorem parametersDecide : Obligations.ParametersDecide := by
  intro p cond imm12 s ht hit hc r
  have sub : executeA32 p cond (operandsA1 false 0xF imm12) s = bxWritePC p r s :=
    (executeA32_pc p false imm12 hit hc).trans (aluWritePC_A32 ht)
  have subs : executeA32 p cond (operandsA1 true 0xF imm12) s = aluExceptionReturn p r s :=
    executeA32_pc p true imm12 hit hc
  rw [sub, subs]
  refine ⟨fun misaligned => ?_, fun hm => ?_, fun w hm hs => aluExceptionReturn_spsr hm hs⟩
  · rw [bxWritePC_misaligned s misaligned]
    split
    · exact ⟨_, rfl, rfl, PState.with_t_eq ht, misalignedTarget_eq _ misaligned⟩
    · rfl
  · split
    · rename_i permitted
      intro hpc
      exact (aluExceptionReturn_permitted hm permitted).imp_right (·.trans (advance_of_lt hpc))
    · rename_i refused
      exact aluExceptionReturn_userSystem hm (by simpa using refused)

/-! ## The exception return (R69, R86) -/

/-- R69: the outline of an illegal return, in a mode that has an SPSR and is not Hyp: the M field is reserved, or names a
mode that is not implemented or not reachable from here (log entry 15). -/
def ReturnIsIllegal (w : Word) (s : State) : Prop :=
  Mode.ofBits (w.extractLsb' 0 5) = none
    ∨ ∃ target, Mode.ofBits (w.extractLsb' 0 5) = some target
      ∧ (target.implemented = false
        ∨ (target = .hyp ∧ s.pstate.m ≠ .monitor)
        ∨ (target = .monitor ∧ s.pstate.m ≠ .monitor ∧ s.security = .nonSecure))

theorem State.isSecure_eq_false_iff (s : State) :
    s.isSecure = false ↔ s.pstate.m ≠ .monitor ∧ s.security = .nonSecure := by
  rw [State.isSecure, Bool.or_eq_false_iff, beq_eq_false_iff_ne, beq_eq_false_iff_ne]
  exact and_congr_right fun _ => by cases s.security <;> simp

/-- R87: the level of the privileged modes other than Hyp and Monitor is at least 1, and 3 in Secure state where Monitor
mode exists. -/
theorem level_privileged {m : Mode} (b : Bool) (hu : m ≠ .user) (hh : m ≠ .hyp) :
    (if b && Config.hasMonitor then 3 else 1) ≤ m.level b := by
  cases m with
  | user => exact absurd rfl hu
  | hyp => exact absurd rfl hh
  | monitor =>
    rw [Mode.level]
    split <;> decide
  | fiq | irq | supervisor | abort | undefined | system => exact Nat.le_refl _

/-- A mode that may be returned to is of no higher privilege (R69, R87). -/
theorem level_le_of_reachable {m target : Mode} {b : Bool} (hu : m ≠ .user) (hh : m ≠ .hyp)
    (hi : target.implemented = true) (toHyp : target = .hyp → m = .monitor)
    (toMonitor : target = .monitor → m = .monitor ∨ b = true) : target.level b ≤ m.level b := by
  cases target with
  | user => exact Nat.zero_le _
  | hyp =>
    rw [toHyp rfl]
    exact Nat.le_succ 2
  | monitor =>
    rcases toMonitor rfl with rfl | rfl
    · exact Nat.le_refl _
    · have := level_privileged true hu hh
      rwa [show Config.hasMonitor = true from hi] at this
  | fiq | irq | supervisor | abort | undefined | system => exact level_privileged b hu hh

/-- `illegalReturn` in a mode that has an SPSR and is not Hyp: the privilege test adds nothing. -/
theorem illegalReturn_iff {w : Word} {s : State} (hu : s.pstate.m ≠ .user) (hh : s.pstate.m ≠ .hyp) :
    illegalReturn w s = true ↔ ReturnIsIllegal w s := by
  unfold illegalReturn ReturnIsIllegal
  cases ht : Mode.ofBits (w.extractLsb' 0 5) with
  | none => simp
  | some target =>
    simp only [reduceCtorEq, false_or, Option.some.injEq, exists_eq_left', Bool.or_eq_true, Bool.and_eq_true,
      Bool.not_eq_true', decide_eq_true_iff, beq_iff_eq, bne_iff_ne, State.isSecure_eq_false_iff]
    constructor
    · rintro (((hi | hl) | hm) | ⟨⟨hy, hm⟩, -⟩)
      · exact .inl hi
      · by_contra legal
        push Not at legal
        obtain ⟨hi, toHyp, toMonitor⟩ := legal
        refine absurd (level_le_of_reachable hu hh (by simpa using hi) toHyp fun e => ?_) (Nat.not_le.mpr hl)
        by_contra no
        push Not at no
        have := (s.isSecure_eq_false_iff).mp (by simpa using no.2)
        exact toMonitor e this.1 this.2
      · exact .inr (.inr hm)
      · exact .inr (.inl ⟨hy, hm⟩)
    · rintro (hi | ⟨hy, hm⟩ | hm)
      · exact .inl (.inl (.inl hi))
      · exact .inr ⟨⟨hy, hm⟩, hh⟩
      · exact .inl (.inr hm)

section
variable (address w : Word) (s : State)

theorem exceptionReturn_pstate : (exceptionReturn address w s).pstate = (setPSTATEFromPSR w s).pstate := by
  unfold exceptionReturn
  dsimp only
  split_ifs <;> rfl

theorem exceptionReturn_events :
    (exceptionReturn address w s).exclusiveMonitor = false ∧ (exceptionReturn address w s).eventRegister = true := by
  unfold exceptionReturn
  dsimp only
  split_ifs <;> exact ⟨rfl, rfl⟩

variable {s}

theorem exceptionReturn_pc_illegal (hil : (setPSTATEFromPSR w s).pstate.il = true) :
    (exceptionReturn address w s).pc = address.extractLsb' 2 30 ++ Config.freePcLow s.freeCount := by
  simp [exceptionReturn, hil]

theorem exceptionReturn_pc_T32 (hil : (setPSTATEFromPSR w s).pstate.il = false)
    (ht : (setPSTATEFromPSR w s).pstate.t = true) :
    (exceptionReturn address w s).pc = address.extractLsb' 1 31 ++ 0#1 := by
  simp [exceptionReturn, hil, ht]

theorem exceptionReturn_pc_A32 (hil : (setPSTATEFromPSR w s).pstate.il = false)
    (ht : (setPSTATEFromPSR w s).pstate.t = false) :
    (exceptionReturn address w s).pc = address.extractLsb' 2 30 ++ 0#2 := by
  simp [exceptionReturn, hil, ht]

/-- The UNKNOWN low bits leave the rest of the address (R69, log entry 16). -/
theorem exceptionReturn_pc_div_four (hil : (setPSTATEFromPSR w s).pstate.il = true) :
    (exceptionReturn address w s).pc.toNat / 4 = address.toNat / 4 := by
  rw [exceptionReturn_pc_illegal address w hil, toNat_replaceLow2]
  have := (Config.freePcLow s.freeCount).isLt
  omega

end

theorem not_userSystem_of_spsr {s : State} {w : Word} (h : s.spsr.get s.pstate.m = some w) :
    s.pstate.m ≠ .user ∧ s.pstate.m ≠ .system := by
  rw [← not_or, ← SpsrBanks.get_none_iff s.spsr, h]
  exact Option.some_ne_none w

/-- Settles O24: the premises are the negation of `ReturnIsIllegal`, and the pc that of each setting of IL and T. -/
theorem subsPcReturns : Obligations.SubsPcReturns := by
  intro cond imm12 s w target hcond hit hc hm hs htarget himpl toHyp toMonitor r
  have legal : illegalReturn w s = false := by
    rw [Bool.eq_false_iff, Ne, illegalReturn_iff (not_userSystem_of_spsr hs).1 hm]
    rintro (hn | ⟨target', ht, hi | ⟨hy, hmon⟩ | ⟨hmo, hmon, hsec⟩⟩)
    · rw [htarget] at hn
      cases hn
    all_goals obtain rfl : target = target' := Option.some.inj (htarget.symm.trans ht)
    · rw [himpl] at hi
      cases hi
    · exact hmon (toHyp hy)
    · exact (toMonitor hmo).elim hmon (by rw [hsec]; simp)
  obtain ⟨target', ht, -, heq⟩ := setPSTATEFromPSR_legal legal
  obtain rfl : target = target' := Option.some.inj (htarget.symm.trans ht)
  have hp : (setPSTATEFromPSR w s).pstate =
      { s.pstate.restoreAlways w with il := w.getLsbD 20, t := w.getLsbD 5, m := target } := by rw [heq]; rfl
  refine ⟨exceptionReturn r w s, (exec_subsPc imm12 hcond hit hc).trans (aluExceptionReturn_spsr hm hs),
    (exceptionReturn_pstate ..).trans hp, fun hil ht => ?_, fun hil ht => ?_, fun hil => ?_, exceptionReturn_events ..⟩
  · rw [exceptionReturn_pc_T32 r w (by rw [hp]; exact hil) (by rw [hp]; exact ht), alignDown2_eq]
  · rw [exceptionReturn_pc_A32 r w (by rw [hp]; exact hil) (by rw [hp]; exact ht), alignDown4_eq]
  · exact exceptionReturn_pc_div_four r w (by rw [hp]; exact hil)

/-- Settles O26: `ReturnIsIllegal` as it stands, then `SetPSTATEFromPSR` of an illegal return. -/
theorem illegalReturnSetsIL : Obligations.IllegalReturnSetsIL := by
  intro cond imm12 s w hcond hit hc hm hs illegal
  have heq := setPSTATEFromPSR_illegal ((illegalReturn_iff (not_userSystem_of_spsr hs).1 hm).mpr illegal)
  have hp : (setPSTATEFromPSR w s).pstate = { s.pstate.restoreAlways w with il := true } := by rw [heq]; rfl
  exact ⟨exceptionReturn _ w s, (exec_subsPc imm12 hcond hit hc).trans (aluExceptionReturn_spsr hm hs),
    (exceptionReturn_pstate ..).trans hp, exceptionReturn_pc_div_four _ w (by rw [hp]), exceptionReturn_events ..⟩

end Sys2Proof.Machine

namespace Sys2Proof.Machine

/-! ## What an instruction leaves alone (R59, R84) -/

/-- How an instruction that does not write the pc ends: it advances, and changes at most its destination's copy in the
current mode, the flags (only for SUBS) and IT (only in the T32 classes). -/
structure EndsInAdvance (i : Instr) (s t : State) : Prop where
  room : s.pc.toNat + i.len < 2 ^ 32
  frame : t = { s with regs := t.regs, pstate := t.pstate, pc := s.pc + BitVec.ofNat 32 i.len }
  pstate : ∃ n z c v, t.pstate = endPState i { s.pstate with n := n, z := z, c := c, v := v }
  pstate_sub : (operandsOf i).setflags = false → t.pstate = endPState i s.pstate
  regs : ∀ m n, n < 15 → (∀ d, destination i = some d → ¬(n = d ∧ sameCopy n s.pstate.m m = true)) →
    t.regs.read m n = s.regs.read m n

theorem endsInAdvance_skipped {i : Instr} {s : State} (hpc : s.pc.toNat + i.len < 2 ^ 32) :
    EndsInAdvance i s ((s.setPState (endPState i s.pstate)).setPc (s.pc + BitVec.ofNat 32 i.len)) where
  room := hpc
  frame := rfl
  pstate := ⟨s.pstate.n, s.pstate.z, s.pstate.c, s.pstate.v, rfl⟩
  pstate_sub _ := rfl
  regs _ _ _ _ := rfl

theorem endsInAdvance_written {i : Instr} {s : State} {d : Nat} (v nzcv) (hd : destination i = some d)
    (hpc : s.pc.toNat + i.len < 2 ^ 32) :
    EndsInAdvance i s (((s.writeReg d v).setPState
      (endPState i (if (operandsOf i).setflags then s.pstate.setNzcv nzcv else s.pstate))).setPc
      (s.pc + BitVec.ofNat 32 i.len)) where
  room := hpc
  frame := rfl
  pstate := by
    split
    · exact ⟨_, _, _, _, rfl⟩
    · exact ⟨s.pstate.n, s.pstate.z, s.pstate.c, s.pstate.v, rfl⟩
  pstate_sub h := by
    rw [h]
    rfl
  regs m n hn h := by
    refine (Regs.read_write _ _ _ _ _ _ (operandsOf_d hd).2 hn).trans (if_neg ?_)
    rintro ⟨rfl, hc⟩
    exact h d hd ⟨rfl, hc⟩

/-- `exec_inv` in three ends: an advance, a branch, or an exception return (R50, R57, R58). -/
theorem exec_cases {i : Instr} {s t : State} (h : exec i s = .next t) :
    EndsInAdvance i s t
      ∨ ((∃ cond imm12, i = .subA1 cond 0xF imm12) ∧ aluWritePC Config.params (subResult i s) s = .next t)
      ∨ ((∃ cond imm12, i = .subsA1 cond 0xF imm12 ∧ conditionHolds cond s.pstate = true) ∧ s.pstate.m ≠ .hyp
          ∧ ∃ w, s.spsr.get s.pstate.m = some w ∧ t = exceptionReturn (subResult i s) w s) := by
  obtain ⟨-, c, hc, ⟨-, hpc, rfl⟩ | ⟨-, d, hd, hpc, rfl⟩ | ⟨-, hi, ht⟩ | ⟨hp, ⟨cond, imm12, rfl⟩, hm, hw⟩⟩ := exec_inv h
  · exact .inl (endsInAdvance_skipped hpc)
  · exact .inl (endsInAdvance_written _ _ hd hpc)
  · exact .inr (.inl ⟨hi, ht⟩)
  · obtain rfl := (currentCondA32_ok hc).2
    exact .inr (.inr ⟨⟨_, imm12, rfl, hp⟩, hm, hw⟩)

/-- An instruction with a register destination ends in an advance. -/
theorem endsInAdvance_of_destination {i : Instr} {s t : State} {d : Nat} (hd : destination i = some d)
    (h : exec i s = .next t) : EndsInAdvance i s t := by
  obtain adv | ⟨⟨cond, imm12, rfl⟩, -⟩ | ⟨⟨cond, imm12, rfl, -⟩, -⟩ := exec_cases h
  · exact adv
  · cases hd
  · cases hd

/-- The machine's own setting refuses a misaligned target, so a branch takes no free value (log entry 13). -/
theorem aluWritePC_freeCount {address : Word} {s t : State} (h : aluWritePC Config.params address s = .next t) :
    t.freeCount = s.freeCount := by
  unfold aluWritePC branchWritePC at h
  split at h
  · cases h
    rfl
  · obtain ⟨-, rfl⟩ | ⟨-, -, hp, -⟩ | ⟨-, -, rfl⟩ := bxWritePC_cases h
    · rfl
    · cases hp
    · rfl

/-- No instruction writes an SPSR, the security state or the program text (R18, R21). -/
theorem exec_frame {i : Instr} {s t : State} (h : exec i s = .next t) :
    t.spsr = s.spsr ∧ t.security = s.security ∧ t.mem = s.mem := by
  obtain adv | ⟨-, ht⟩ | ⟨-, -, w, -, rfl⟩ := exec_cases h
  · rw [adv.frame]
    exact ⟨rfl, rfl, rfl⟩
  · obtain ⟨-, hspsr, hsec, -, -, hmem, -⟩ := aluWritePC_frame ht
    exact ⟨hspsr, hsec, hmem⟩
  · obtain ⟨-, hspsr, hsec, hmem⟩ := exceptionReturn_frame (subResult i s) w s
    exact ⟨hspsr, hsec, hmem⟩

theorem endPState_eq_with_it (i : Instr) (p : PState) : endPState i p = { p with it := (endPState i p).it } := by
  unfold endPState
  split <;> rfl

/-- The fields besides registers, PSTATE and pc after an advance, in the order of the frame statements. -/
theorem EndsInAdvance.others {i : Instr} {s t : State} (h : EndsInAdvance i s t) :
    t.spsr = s.spsr ∧ t.security = s.security ∧ t.exclusiveMonitor = s.exclusiveMonitor
      ∧ t.eventRegister = s.eventRegister ∧ t.freeCount = s.freeCount ∧ ∀ a, t.mem.read a = s.mem.read a := by
  rw [h.frame]
  exact ⟨rfl, rfl, rfl, rfl, rfl, fun _ => rfl⟩

theorem EndsInAdvance.regs_of_destination {i : Instr} {s t : State} {d : Nat} (h : EndsInAdvance i s t)
    (hd : destination i = some d) (m : Mode) (n : Nat) (hn : n < 15)
    (hne : ¬(n = d ∧ sameCopy n s.pstate.m m = true)) : t.regs.read m n = s.regs.read m n := by
  refine h.regs m n hn fun d' hd' => ?_
  rw [hd] at hd'
  cases hd'
  exact hne

theorem EndsInAdvance.it_A32 {i : Instr} {s t : State} (h : EndsInAdvance i s t) (ht : i.isT32 = false) :
    t.pstate.it = s.pstate.it := by
  obtain ⟨n, z, c, v, hp⟩ := h.pstate
  rw [hp, endPState_A32 _ ht]

/-- The PSTATE fields an advance leaves alone. -/
theorem EndsInAdvance.pstate_eq {i : Instr} {s t : State} (h : EndsInAdvance i s t) :
    t.pstate = { s.pstate with
      n := t.pstate.n, z := t.pstate.z, c := t.pstate.c, v := t.pstate.v, it := t.pstate.it } := by
  obtain ⟨n, z, c, v, hp⟩ := h.pstate
  rw [hp, endPState_eq_with_it]

/-- Settles O33: SUB ends in an advance with the flags it had. -/
theorem subFrame : Obligations.SubFrame := by
  intro i d s t noSubsA1 noSubsT2 hd h
  have adv := endsInAdvance_of_destination hd h
  have sub : (operandsOf i).setflags = false := by
    cases i with
    | subA1 | subT1 | subT2 | subT3 => rfl
    | subsA1 => exact absurd rfl (noSubsA1 _ _ _)
    | subsT2 => exact absurd rfl (noSubsT2 _ _ _ _)
  refine ⟨adv.regs_of_destination hd, ?_, adv.it_A32, adv.others⟩
  rw [adv.pstate_sub sub]
  exact endPState_eq_with_it i s.pstate

/-- What an instruction whose condition fails leaves alone. -/
theorem skipped_frame {i : Instr} {s t : State} {c : BitVec 4} (h : exec i s = .next t)
    (hc : currentCond i s.pstate = .ok c) (hf : conditionHolds c s.pstate = false) :
    t = (s.setPState (endPState i s.pstate)).setPc t.pc := by
  rw [exec_skipped (exec_wf h) hc hf, advanceOf_next_iff] at h
  rw [h.2]
  rfl

/-- An A1 instruction that ends in a next state has its own condition (R66). -/
theorem currentCond_of_exec_A1 {i : Instr} {s t : State} {cond rd imm12} (h : exec i s = .next t)
    (hi : i = .subA1 cond rd imm12 ∨ i = .subsA1 cond rd imm12) : currentCond i s.pstate = .ok cond := by
  obtain ⟨-, c, hc, -⟩ := exec_inv h
  rcases hi with rfl | rfl
  · exact (currentCondA32_ok hc).2 ▸ hc
  · exact (currentCondA32_ok hc).2 ▸ hc

/-- Settles O34: as O33; the failed condition by `skipped_frame`. -/
theorem subsFrame : Obligations.SubsFrame := by
  intro i d s t _ hd h
  have adv := endsInAdvance_of_destination hd h
  refine ⟨adv.regs_of_destination hd, adv.pstate_eq, ?failedA1, ?failedT2, adv.it_A32, adv.others⟩
  case failedA1 =>
    rintro cond rd imm12 rfl hf
    rw [skipped_frame h (currentCond_of_exec_A1 h (.inr rfl)) hf]
    exact ⟨rfl, rfl⟩
  case failedT2 =>
    rintro ib imm3 rd imm8 cond rfl hc hf
    rw [skipped_frame h hc hf]
    exact ⟨rfl, rfl⟩

/-- Settles O35: the failed condition advances only, the passed one branches. -/
theorem subPcFrame : Obligations.SubPcFrame := by
  intro cond imm12 s t h
  obtain ⟨-, c, -, ⟨-, -, rfl⟩ | ⟨-, d, hd, -⟩ | ⟨-, -, ht⟩ | ⟨-, ⟨_, _, hi⟩, -⟩⟩ := exec_inv h
  · exact ⟨rfl, rfl, rfl, rfl, rfl, rfl, rfl, fun _ => rfl⟩
  · cases hd
  · obtain ⟨hregs, hspsr, hsec, hmon, hev, hmem, hp⟩ := aluWritePC_frame ht
    exact ⟨hregs, hp, hspsr, hsec, hmon, hev, aluWritePC_freeCount ht, fun a => by rw [hmem]⟩
  · cases hi

/-- Settles O36: as O35, with the exception return in place of the branch. -/
theorem subsPcFrame : Obligations.SubsPcFrame := by
  intro cond imm12 s t h
  obtain ⟨hspsr, hsec, hmem⟩ := exec_frame h
  refine ⟨?_, hspsr, hsec, skipped_frame h (currentCond_of_exec_A1 h (.inr rfl)), fun a => by rw [hmem]⟩
  obtain ⟨-, c, -, ⟨-, -, rfl⟩ | ⟨-, d, hd, -⟩ | ⟨-, ⟨_, _, hi⟩, -⟩ | ⟨-, -, -, w, -, rfl⟩⟩ := exec_inv h
  · rfl
  · cases hd
  · cases hi
  · exact (exceptionReturn_frame ..).1

/-! ## Every step (R15, R86, R87) -/

/-- Settles O41: an advance and a branch keep the mode. -/
theorem modeChangesOnlyByReturn : Obligations.ModeChangesOnlyByReturn := by
  intro s t h hm
  obtain ⟨i, hf, hx⟩ := step_cases h
  obtain adv | ⟨-, ht⟩ | ⟨⟨cond, imm12, rfl, hc⟩, hyp, w, hw, -⟩ := exec_cases hx
  · exact absurd (congrArg PState.m adv.pstate_eq) hm
  · obtain ⟨-, -, -, -, -, -, hp⟩ := aluWritePC_frame ht
    exact absurd (congrArg PState.m hp) hm
  · obtain ⟨user, system⟩ := not_userSystem_of_spsr hw
    exact ⟨⟨cond, imm12, hf, hc⟩, user, system, hyp⟩

/-- Settles O43: an advance keeps T. -/
theorem instructionSetChangesOnlyByPcWrite : Obligations.InstructionSetChangesOnlyByPcWrite := by
  intro s t h ht
  obtain ⟨i, hf, hx⟩ := step_cases h
  obtain adv | ⟨⟨cond, imm12, rfl⟩, -⟩ | ⟨⟨cond, imm12, rfl, -⟩, -⟩ := exec_cases hx
  · exact absurd (congrArg PState.t adv.pstate_eq) ht
  · exact ⟨cond, imm12, .inl hf⟩
  · exact ⟨cond, imm12, .inr hf⟩

/-- User and System modes see the same copies (R13). -/
theorem sameCopy_user {n : Nat} {m' : Mode} (m : Mode) (h : m' = .user ∨ m' = .system) :
    sameCopy n m' m = sameCopy n .user m := by
  rcases h with rfl | rfl
  · rfl
  · unfold sameCopy
    split_ifs <;> cases m <;> rfl

/-- Settles O42: an advance and a branch change nothing else; there is no SPSR to return with. -/
theorem userModeConfined : Obligations.UserModeConfined := by
  intro s t hm h
  obtain ⟨i, -, hx⟩ := step_cases h
  obtain adv | ⟨-, ht⟩ | ⟨-, -, w, hw, -⟩ := exec_cases hx
  · obtain ⟨hspsr, hsec, hmon, hev, -, -⟩ := adv.others
    refine ⟨?_, hspsr, hsec, hmon, hev, fun m n hn hne => adv.regs m n hn ?_⟩
    · rw [adv.pstate_eq]
    · rintro d - ⟨-, hc⟩
      rw [sameCopy_user m hm, hne] at hc
      cases hc
  · obtain ⟨hregs, hspsr, hsec, hmon, hev, -, hp⟩ := aluWritePC_frame ht
    refine ⟨?_, hspsr, hsec, hmon, hev, fun m n _ _ => by rw [hregs]⟩
    rw [hp]
  · exact absurd hm (not_or.mpr (not_userSystem_of_spsr hw))

end Sys2Proof.Machine

namespace Sys2Proof.Machine

/-! ## The invariant (R24, R70, R90) -/

/-- What is fetched is of a class of the instruction set state (R34). -/
theorem fetch_isT32 {s : State} {i : Instr} (h : fetch s = .next i) : i.isT32 = s.pstate.t := by
  obtain ⟨-, -, rest, hd⟩ := fetch_cases h
  exact (encodeOfDecode _ _ _ _ _ hd).2.1

/-- The invariant after a step, where the mode is implemented and the last clause holds. -/
theorem State.Inv.of_exec {i : Instr} {s t : State} (hs : s.Inv) (h : exec i s = .next t)
    (hm : t.pstate.m.implemented = true)
    (hpc : t.pstate.il = false → t.pcAligned = true ∧ (t.pstate.t = false → t.pstate.it = 0)) : t.Inv := by
  obtain ⟨hmem, -, hspsr, -⟩ := hs
  obtain ⟨espsr, -, emem⟩ := exec_frame h
  exact ⟨emem ▸ hmem, hm, espsr ▸ hspsr, hpc⟩

/-- The lengths keep the alignment of their instruction set (R14). -/
theorem len_of_isT32 (i : Instr) : if i.isT32 then i.len % 2 = 0 else i.len = 4 := by
  cases i <;> simp [Instr.isT32, Instr.len]

/-- An advance keeps the pc aligned (R14, R24). -/
theorem EndsInAdvance.pcAligned {i : Instr} {s t : State} (h : EndsInAdvance i s t) (hi : i.isT32 = s.pstate.t)
    (hal : s.pcAligned = true) : t.pcAligned = true := by
  have hroom := h.room
  have hlen := len_of_isT32 i
  have hpc : t.pc.toNat = s.pc.toNat + i.len := by
    rw [h.frame, BitVec.toNat_add, BitVec.toNat_ofNat]
    omega
  rw [State.pcAligned_iff, congrArg PState.t h.pstate_eq, hpc]
  rw [State.pcAligned_iff, ← hi] at hal
  rw [← hi]
  split at hal <;> rename_i ht
  · rw [if_pos ht] at hlen ⊢
    omega
  · rw [if_neg ht] at hlen ⊢
    omega

/-- A branch lands aligned: a target that would not is refused (R57, R68). -/
theorem bxWritePC_pcAligned {address : Word} {s t : State} (h : bxWritePC Config.params address s = .next t) :
    t.pcAligned = true := by
  rw [State.pcAligned_iff]
  obtain ⟨-, rfl⟩ | ⟨-, -, hp, -⟩ | ⟨h0, h1, rfl⟩ := bxWritePC_cases h
  · change (address.extractLsb' 1 31 ++ 0#1).toNat % 2 = 0
    rw [toNat_replaceLow1, BitVec.toNat_ofNat]
    omega
  · cases hp
  · change address.toNat % 4 = 0
    rw [getLsbD_zero_eq_false_iff] at h0
    rw [getLsbD_one_eq_false_iff] at h1
    omega

/-- An exception return lands aligned, or in the illegal-execution state (R69). -/
theorem exceptionReturn_pcAligned (address w : Word) {s : State}
    (hil : (exceptionReturn address w s).pstate.il = false) : (exceptionReturn address w s).pcAligned = true := by
  rw [exceptionReturn_pstate] at hil
  rw [State.pcAligned_iff, exceptionReturn_pstate]
  split
  · rename_i ht
    rw [exceptionReturn_pc_T32 _ _ hil ht, toNat_replaceLow1, BitVec.toNat_ofNat]
    omega
  · rename_i ht
    rw [exceptionReturn_pc_A32 _ _ hil (by simpa using ht), toNat_replaceLow2, BitVec.toNat_ofNat]
    omega

/-- Settles O38: an advance and a branch keep the clauses about the pc and IT; a legal return takes its mode, T and IT from
an SPSR that meets the invariant, and an illegal one sets IL. -/
theorem stepKeepsInvariant : Obligations.StepKeepsInvariant := by
  intro s t hs h
  have ⟨_, hm, hspsr, hlast⟩ := hs
  obtain ⟨i, hf, hx⟩ := step_cases h
  have hi := fetch_isT32 hf
  obtain ⟨hil, hal, -⟩ := fetch_cases hf
  obtain adv | ⟨⟨cond, imm12, rfl⟩, ht⟩ | ⟨-, -, w, hw, rfl⟩ := exec_cases hx
  · have hp := adv.pstate_eq
    refine hs.of_exec hx ?_ fun _ => ⟨adv.pcAligned hi hal, fun ht => ?_⟩
    · rw [congrArg PState.m hp]
      exact hm
    · have a32 : s.pstate.t = false := (congrArg PState.t hp).symm.trans ht
      rw [adv.it_A32 (hi.trans a32)]
      exact (hlast hil).2 a32
  · have a32 : s.pstate.t = false := hi.symm
    obtain ⟨-, -, -, -, -, -, hp⟩ := aluWritePC_frame ht
    refine hs.of_exec hx ?_ fun _ => ⟨bxWritePC_pcAligned ((aluWritePC_A32 a32).symm.trans ht), fun _ => ?_⟩
    · rw [congrArg PState.m hp]
      exact hm
    · rw [congrArg PState.it hp]
      exact (hlast hil).2 a32
  · have hp := exceptionReturn_pstate (subResult i s) w s
    cases illegal : illegalReturn w s with
    | true =>
      rw [setPSTATEFromPSR_illegal illegal] at hp
      refine hs.of_exec hx ?_ fun hil => ?_
      · rw [hp]
        exact hm
      · rw [hp] at hil
        cases hil
    | false =>
      obtain ⟨target, -, himpl, heq⟩ := setPSTATEFromPSR_legal illegal
      rw [heq] at hp
      refine hs.of_exec hx ?_ fun hil => ⟨exceptionReturn_pcAligned _ w hil, fun ht => ?_⟩
      · rw [hp]
        exact himpl
      · rw [hp] at ht ⊢
        by_contra hit
        rw [State.setPState_pstate, hspsr _ w hw hit] at ht
        cases ht

/-! ## Reset (R19, R90) -/

theorem spsr_reset {m : Mode} {w : Word} (h : State.reset.spsr.get m = some w) : w = 0 := by
  cases m with
  | user | system => cases h
  | hyp | supervisor | abort | undefined | monitor | irq | fiq => exact (Option.some.inj h).symm

/-- Settles O39: the SPSRs are 0, so none has IT bits. -/
theorem resetMeetsInvariant : Obligations.ResetMeetsInvariant := by
  refine ⟨⟨List.Pairwise.nil, fun p hp => absurd hp List.not_mem_nil⟩, rfl, fun m w hw hit => ?_,
    fun _ => ⟨rfl, fun _ => rfl⟩⟩
  rw [spsr_reset hw] at hit
  exact absurd rfl hit

theorem Memory.read_nil (a : Nat) : Memory.read [] a = none := ite_self _

theorem regs_reset (m : Mode) {n : Nat} (hn : n < 15) : State.reset.regs.read m n = 0 := by
  obtain h | ⟨h, h'⟩ | rfl | rfl := regKind n hn
  · rw [Regs.read_low _ _ _ h]
    exact Vector.getElem_replicate ..
  · rw [Regs.read_mid _ _ _ h h']
    split <;> exact Vector.getElem_replicate ..
  · rw [Regs.read_sp]
    cases m <;> rfl
  · rw [Regs.read_lr]
    cases m <;> rfl

/-- Settles O40: with no text, the first fetch finds none. -/
theorem resetState : Obligations.ResetState := by
  refine ⟨⟨fun _ => ⟨rfl, rfl⟩, fun ht => ?_, fun hm => ?_⟩, Memory.read_nil, fun m n => regs_reset m,
    step_noText_A32 (s := State.reset) (k := 0) rfl rfl rfl (by decide) (Memory.read_nil _)⟩
  · cases ht
  · cases hm

/-! ## Runs (R21, R94) -/

theorem run_succ_of_step {k : Nat} {s u : State} (hu : step s = .next u) :
    Sys2Proof.core.run (k + 1) s = Sys2Proof.core.run k u := by
  simp only [Host.Core.run, show Sys2Proof.core.step s = .next u from hu]

theorem run_succ_iff {k : Nat} {s t : State} :
    Sys2Proof.core.run (k + 1) s = .next t ↔ ∃ u, step s = .next u ∧ Sys2Proof.core.run k u = .next t := by
  refine ⟨fun h => ?_, fun ⟨u, hu, ht⟩ => (run_succ_of_step hu).trans ht⟩
  cases hs : step s with
  | next u => exact ⟨u, rfl, (run_succ_of_step hs).symm.trans h⟩
  | fault r => simp only [Host.Core.run, show Sys2Proof.core.step s = .fault r from hs, reduceCtorEq] at h
  | refused r => simp only [Host.Core.run, show Sys2Proof.core.step s = .refused r from hs, reduceCtorEq] at h

/-- What every step keeps, a run keeps. -/
theorem run_keeps {α : Type} (f : State → α) (hf : ∀ s t, step s = .next t → f t = f s) {k : Nat} {s t : State}
    (h : Sys2Proof.core.run k s = .next t) : f t = f s := by
  induction k generalizing s with
  | zero =>
    cases h
    rfl
  | succ k ih =>
    obtain ⟨u, hu, ht⟩ := run_succ_iff.mp h
    exact (ih ht).trans (hf s u hu)

theorem step_frame {s t : State} (h : step s = .next t) :
    t.spsr = s.spsr ∧ t.security = s.security ∧ t.mem = s.mem := by
  obtain ⟨i, -, hx⟩ := step_cases h
  exact exec_frame hx

/-- Settles O44. -/
theorem programTextImmutable : Obligations.ProgramTextImmutable :=
  fun _ _ _ => run_keeps State.mem fun _ _ h => (step_frame h).2.2

/-- Settles O45. -/
theorem spsrNeverWritten : Obligations.SpsrNeverWritten :=
  fun _ _ _ h =>
    ⟨run_keeps State.spsr (fun _ _ h => (step_frame h).1) h,
      run_keeps State.security (fun _ _ h => (step_frame h).2.1) h⟩

/-- R94, D18: END is reached first after `j` steps, in `t`. -/
def FirstReaches (e : EndPoint) (j : Nat) (s t : State) : Prop :=
  Sys2Proof.core.run j s = .next t ∧ e.reached t = true
    ∧ ∀ i u, 0 < i → i < j → Sys2Proof.core.run i s = .next u → e.reached u = false

section
variable {e : EndPoint} {s u : State} (hu : step s = .next u)
include hu

theorem run_one : Sys2Proof.core.run 1 s = .next u := run_succ_iff.mpr ⟨u, hu, rfl⟩

theorem runTo_of_reached (hr : e.reached u = true) (k : Nat) : runTo e (k + 1) s = .ended u := by
  simp only [runTo, hu, hr, if_true]

theorem runTo_of_not_reached (hr : e.reached u = false) (k : Nat) : runTo e (k + 1) s = runTo e k u := by
  simp only [runTo, hu, hr, Bool.false_eq_true, if_false]

/-- END reached by the first step. -/
theorem firstReaches_of_reached (hr : e.reached u = true) {j : Nat} (hj : 0 < j) {t : State} :
    FirstReaches e j s t ↔ j = 1 ∧ t = u := by
  constructor
  · rintro ⟨hrun, -, hfirst⟩
    obtain rfl : j = 1 := by
      by_contra hne
      have := hfirst 1 u Nat.one_pos (by omega) (run_one hu)
      rw [hr] at this
      cases this
    rw [run_one hu] at hrun
    exact ⟨rfl, (Host.Outcome.next.inj hrun).symm⟩
  · rintro ⟨rfl, rfl⟩
    exact ⟨run_one hu, hr, fun i _ h0 h1 => by omega⟩

/-- END not reached by the first step. -/
theorem firstReaches_succ (hr : e.reached u = false) {j : Nat} {t : State} :
    FirstReaches e (j + 1) s t ↔ FirstReaches e j u t := by
  unfold FirstReaches
  rw [run_succ_of_step hu]
  refine and_congr_right fun _ => and_congr_right fun _ => ⟨fun h i v h0 hi hv => ?_, fun h i v h0 hi hv => ?_⟩
  · exact h (i + 1) v (by omega) (by omega) ((run_succ_of_step hu).trans hv)
  · obtain ⟨i, rfl⟩ := Nat.exists_eq_add_one.mpr h0
    rw [run_succ_of_step hu] at hv
    cases i with
    | zero =>
      cases hv
      exact hr
    | succ i => exact h (i + 1) v (by omega) (by omega) hv

end

theorem firstReaches_pos {e : EndPoint} {u t : State} {j : Nat} (hr : e.reached u = false) (h : FirstReaches e j u t) :
    0 < j := by
  obtain ⟨hrun, hreached, -⟩ := h
  cases j with
  | zero =>
    cases hrun
    rw [hr] at hreached
    cases hreached
  | succ j => exact Nat.succ_pos j

/-- A run that stops at its first step has not ended. -/
theorem runTo_ne_ended {e : EndPoint} {s : State} (h : ∀ u, step s ≠ .next u) (k : Nat) (t : State) :
    runTo e (k + 1) s ≠ .ended t := by
  cases hs : step s with
  | next u => exact absurd hs (h u)
  | fault r | refused r => simp only [runTo, hs, ne_eq, reduceCtorEq, not_false_eq_true]

/-- A run ends normally exactly where END is first reached after a step. -/
theorem runTo_ended_iff (e : EndPoint) (k : Nat) (s t : State) :
    runTo e k s = .ended t ↔ ∃ j, 0 < j ∧ j ≤ k ∧ FirstReaches e j s t := by
  induction k generalizing s with
  | zero => exact ⟨fun h => absurd h (by simp [runTo]), fun ⟨j, h0, hk, _⟩ => by omega⟩
  | succ k ih =>
    by_cases hstep : ∃ u, step s = .next u
    · obtain ⟨u, hu⟩ := hstep
      cases hr : e.reached u with
      | true =>
        rw [runTo_of_reached hu hr]
        constructor
        · intro h
          exact ⟨1, Nat.one_pos, by omega,
            (firstReaches_of_reached hu hr Nat.one_pos).mpr ⟨rfl, (RunEnd.ended.inj h).symm⟩⟩
        · rintro ⟨j, h0, -, hj⟩
          rw [((firstReaches_of_reached hu hr h0).mp hj).2]
      | false =>
        rw [runTo_of_not_reached hu hr, ih u]
        constructor
        · rintro ⟨j, h0, hk, hj⟩
          exact ⟨j + 1, by omega, by omega, (firstReaches_succ hu hr).mpr hj⟩
        · rintro ⟨j, h0, hk, hj⟩
          obtain ⟨j, rfl⟩ := Nat.exists_eq_add_one.mpr h0
          have hj := (firstReaches_succ hu hr).mp hj
          exact ⟨j, firstReaches_pos hr hj, by omega, hj⟩
    · push Not at hstep
      refine ⟨fun h => absurd h (runTo_ne_ended hstep k t), ?_⟩
      rintro ⟨j, h0, -, hrun, -⟩
      obtain ⟨j, rfl⟩ := Nat.exists_eq_add_one.mpr h0
      obtain ⟨u, hu, -⟩ := run_succ_iff.mp hrun
      exact absurd hu (hstep u)

/-- A step at an address without text (R24, D7). -/
theorem step_noText_of_read {s : State} (hil : s.pstate.il = false) (hal : s.pcAligned = true)
    (h : s.mem.read s.pc.toNat = none) : step s = .fault (.noText s.pc) := by
  cases ht : s.pstate.t with
  | false => exact step_noText_A32 hil hal ht (k := 0) (by decide) h
  | true => exact step_noText_T32 hil hal ht (k := 0) (by decide) h

/-- Settles O47: `runTo_ended_iff`, and at END the first step finds no text. -/
theorem runEndsAfterStepAtEnd : Obligations.RunEndsAfterStepAtEnd := by
  intro e k s
  refine ⟨runTo_ended_iff e k s, fun hr hil hal => ?_⟩
  rw [EndPoint.reached, Bool.and_eq_true, Option.isNone_iff_eq_none] at hr
  rw [runTo, step_noText_of_read hil hal hr.2]

/-! ## Only the SP is read (R11, R50) -/

/-- The same state with other registers. -/
def State.withRegs (s : State) (r : Regs) : State := { s with regs := r }

theorem setPSTATEFromPSR_withRegs (w : Word) (s : State) (r : Regs) :
    setPSTATEFromPSR w (s.withRegs r) = (setPSTATEFromPSR w s).withRegs r := by
  unfold setPSTATEFromPSR
  dsimp only
  rw [apply_ite (State.withRegs · r)]
  rfl

theorem exceptionReturn_withRegs (address w : Word) (s : State) (r : Regs) :
    exceptionReturn address w (s.withRegs r) = (exceptionReturn address w s).withRegs r := by
  unfold exceptionReturn
  rw [setPSTATEFromPSR_withRegs]
  dsimp only
  rw [apply_ite (State.withRegs · r), apply_ite (State.withRegs · r)]
  rfl

theorem aluWritePC_T32 {p : Config.Params} {address : Word} {s : State} (ht : s.pstate.t = true) :
    aluWritePC p address s = .next (s.setPc (address.extractLsb' 1 31 ++ 0#1)) := by
  simp only [aluWritePC, branchWritePC, ht, if_true]

theorem aluWritePC_withRegs {p : Config.Params} {address : Word} {s t : State} (r : Regs)
    (h : aluWritePC p address s = .next t) : aluWritePC p address (s.withRegs r) = .next (t.withRegs r) := by
  cases ht : s.pstate.t with
  | true =>
    rw [aluWritePC_T32 ht] at h
    cases h
    exact aluWritePC_T32 (s := s.withRegs r) ht
  | false =>
    rw [aluWritePC_A32 ht] at h
    refine (aluWritePC_A32 (s := s.withRegs r) ht).trans ?_
    obtain ⟨h0, rfl⟩ | ⟨h0, h1, hp, rfl⟩ | ⟨h0, h1, rfl⟩ := bxWritePC_cases h
    · simp only [bxWritePC, h0, if_true]
      rfl
    · simp only [bxWritePC, h0, h1, hp, if_true, Bool.false_eq_true, if_false]
      rfl
    · simp only [bxWritePC, h0, h1, Bool.false_eq_true, if_false]
      rfl

/-- What an instruction does from the same state with other registers, the SP read the same: it ends in the same state, but
for the registers, and writes the same value to the same one. -/
theorem exec_withRegs {i : Instr} {s t : State} (r : Regs) (h : exec i s = .next t)
    (hsp : r.read s.pstate.m 13 = s.regs.read s.pstate.m 13) :
    ∃ r', exec i (s.withRegs r) = .next (t.withRegs r')
      ∧ ((r' = r ∧ t.regs = s.regs)
        ∨ ∃ d v, d < 15 ∧ r' = r.write s.pstate.m d v ∧ t.regs = s.regs.write s.pstate.m d v) := by
  have hres : subResult i (s.withRegs r) = subResult i s := congrArg (· - (operandsOf i).imm32) hsp
  obtain ⟨hw, c, hc, ⟨hf, hpc, rfl⟩ | ⟨hp, d, hd, hpc, rfl⟩ | ⟨hp, ⟨cond, imm12, rfl⟩, ht⟩ |
    ⟨hp, ⟨cond, imm12, rfl⟩, hm, w, hs, rfl⟩⟩ := exec_inv h
  · exact ⟨r, (exec_skipped (s := s.withRegs r) hw hc hf).trans (advanceOf_next_iff.mpr ⟨hpc, rfl⟩),
      .inl ⟨rfl, rfl⟩⟩
  · have hx := exec_reg (s := s.withRegs r) hw hc hd hpc
    refine ⟨r.write s.pstate.m d (subResult i s), hx.trans ?_, .inr ⟨d, _, (operandsOf_d hd).2, rfl, rfl⟩⟩
    have hread : State.readReg (s.withRegs r) 13 = s.readReg 13 := hsp
    rw [regEffect, if_pos (show conditionHolds c (s.withRegs r).pstate = true from hp), hres, hread, setNzcv_sub]
    rfl
  · refine ⟨r, ?_, .inl ⟨rfl, (aluWritePC_frame ht).1⟩⟩
    refine (exec_pc (s := s.withRegs r) hw hc hp rfl).trans ?_
    rw [hres]
    exact aluWritePC_withRegs r ht
  · refine ⟨r, ?_, .inl ⟨rfl, (exceptionReturn_frame ..).1⟩⟩
    refine (exec_pc (s := s.withRegs r) hw hc hp rfl).trans ?_
    rw [hres]
    refine (aluExceptionReturn_spsr (s := s.withRegs r) hm hs).trans ?_
    rw [exceptionReturn_withRegs]
    rfl

/-- Settles O46: `exec_withRegs` with the one register changed, which is not the SP. -/
theorem onlySpIsRead : Obligations.OnlySpIsRead := by
  intro i s t n v hn hne h
  have hsp : (s.regs.write s.pstate.m n v).read s.pstate.m 13 = s.regs.read s.pstate.m 13 := by
    rw [Regs.read_write _ _ _ _ _ _ hn (by decide), if_neg fun he => hne he.1]
  obtain ⟨r', hx, hr⟩ := exec_withRegs _ h hsp
  refine ⟨_, hx, rfl, rfl, rfl, rfl, rfl, rfl, rfl, rfl, fun m k hk hne' => ?_⟩
  have other : (s.regs.write s.pstate.m n v).read m k = s.regs.read m k := by
    rw [Regs.read_write _ _ _ _ _ _ hn hk, if_neg]
    rintro ⟨rfl, hc⟩
    exact hne' ⟨rfl, hc⟩
  rcases hr with ⟨rfl, ht⟩ | ⟨d, x, hd, rfl, ht⟩
  · rw [ht]
    exact other
  · rw [ht]
    change ((s.regs.write s.pstate.m n v).write s.pstate.m d x).read m k = _
    rw [Regs.read_write _ _ _ _ _ _ hd hk, Regs.read_write _ _ _ _ _ _ hd hk, other]

end Sys2Proof.Machine
